-- ==== Sys2Proof/Word.lean ====
section
/-! DEFINITION. The word of the MT64 core (00_scope.md section 6.1, rules R9 and R10): an unsigned 64-bit number. Every word of `state`,
every seed word, every command word and every response datum is one.

The arithmetic of rule R9 is `BitVec`'s own: `a + b`, `a - b` and `a * b` keep the low 64 bits and record nothing else.
The operations of rule R10 are `a ^^^ b`, `a &&& b`, `a ||| b`, the logical shift `a >>> k` and the shift `a <<< k`. -/

namespace Sys2Proof

/-- A word: bit 0 is the least significant, bit 63 the most significant (00_scope.md section 6.1). -/
abbrev Word := BitVec 64

end Sys2Proof
end

