-- ==== Sys2Proof/Machine/Constants.lean ====
section
/-! DEFINITION. The block's fixed parameters, as rule R5 lists them. They are hardwired and no part of the state (R19). -/

namespace Sys2Proof.Machine

/-- `F`, the multiplier of the scalar initializer. -/
def multF : Word := 6364136223846793005

/-- `A_FWD`, the multiplier of the forward mixing pass. -/
def multFwd : Word := 3935559000370003845

/-- `A_REV`, the multiplier of the reverse mixing pass. -/
def multRev : Word := 2862933555777941757

/-- `BASE_SEED`, the scalar seed that array seeding starts from. -/
def baseSeed : Word := 19650218

/-- `DEFAULT_SEED`, the seed of `SEED_DEFAULT`. -/
def defaultSeed : Word := 5489

/-- `TOP`, 2^63. -/
def topWord : Word := 0x8000000000000000

/-- `UM`, bits 63 to 31. -/
def upperMask : Word := 0xFFFFFFFF80000000

/-- `LM`, bits 30 to 0. -/
def lowerMask : Word := 0x000000007FFFFFFF

/-- `MAGIC[b]`, the two-entry constant table indexed by one bit (R28). -/
def magic (b : Bool) : Word := if b then 0xB5026F5AA96619E9 else 0

/-- `T1_MASK`. -/
def temperMask1 : Word := 0x5555555555555555

/-- `T2_MASK`. -/
def temperMask2 : Word := 0x71D67FFFEDA60000

/-- `T3_MASK`. -/
def temperMask3 : Word := 0xFFF7EEE000000000

/-- `SENTINEL`, the `index` value of an unseeded block. -/
def sentinel : BitVec 9 := 313

/-- `N` as a value of `index`: the buffer is exhausted. -/
def exhaustedIndex : BitVec 9 := 312

end Sys2Proof.Machine
end

