-- ==== Sys2Proof/Config.lean ====
section
/-! DEFINITION. What the spec leaves open and no rule fixes. The one open value of this block is the content of the `state` array
after a reset (rules R15, R23 and 93_implementation_defined.md V1, V2: a model must not choose zero or any fixed content).

The fixed parameters of rule R5 are in `Sys2Proof/Machine/Constants.lean`. The widths that rule R6 decides (9 bits of `index`, 64 bits
of a command word, 8, 24 and 32 bits of a header's fields, 8 bits of a status) stand in the types that use them. -/

namespace Sys2Proof.Config

/-- FREE VALUE (assumption log 1). `unspecifiedWord r e` is what word `e` of the `state` array holds after reset number `r`, before
a seeding command writes it. It has no body, so nothing can be proved about its value. -/
opaque unspecifiedWord : Nat → Nat → Word

end Sys2Proof.Config
end

