-- ==== Sys2Proof/Syntax.lean ====
section
/-! DEFINITION. The command set of the MT64 core, one constructor per row of spec/opcode_table.json (30_encoding.md rule R46). -/

namespace Sys2Proof

/-- A legal command with its operands (rules R43 and R46). An illegal header is no command of this type: it is a verdict of the
decoder (rule R49). -/
inductive Instr where
  /-- `SEED_DEFAULT`, no operand (rule R57). -/
  | seedDefault
  /-- `SEED_SCALAR seed`, `seed = payload[0]` (rule R56). -/
  | seedScalar (seed : Word)
  /-- `SEED_ARRAY key[0], …, key[len-1]`, `key[j] = payload[j]`. The empty key is a command too (rules R47 and R63). -/
  | seedArray (key : List Word)
  /-- `NEXT`, no operand (rule R75). -/
  | next
  deriving DecidableEq, Repr

end Sys2Proof
end

