-- ==== Sys2Proof/WellFormed.lean ====
section
/-! DEFINITION. Which commands the encoding can express. The one bound is the 32-bit length field (rules R6, R47 and V8): a seed array
has at most 2^32 - 1 words. The empty array is well formed (rule R47: its execution raises `InvalidSeed`). -/

namespace Sys2Proof

/-- A command that some sequence of command words stands for. -/
def Instr.wellFormed : Instr → Bool
  | .seedDefault => true
  | .seedScalar _ => true
  | .seedArray key => decide (key.length < 2 ^ 32)
  | .next => true

end Sys2Proof
end

