-- ==== Sys2Proof/Decode.lean ====
section
/-! DEFINITION. The command encoding of 30_encoding.md: header fields (R42), header decoder (R53), operand assembly (R43), framing
(R41), the decoder of a stream of command words, and after it the encoder (R46, R51). Nothing else in the model depends on the
encoding (92_eei_decisions.md D3). -/

namespace Sys2Proof

/-- `OPC`, header bits 63:56 (R42). -/
def opcField (h : Word) : BitVec 8 := h.extractLsb' 56 8

/-- `RSV`, header bits 55:32 (R42). -/
def rsvField (h : Word) : BitVec 24 := h.extractLsb' 32 24

/-- `LEN`, header bits 31:0: the number of payload words of every header, legal or not (R41, R42). -/
def lenField (h : Word) : BitVec 32 := h.extractLsb' 0 32

/-- Why a header is illegal (R49), in the order the checks are made (R53, R87). The response does not tell the reasons apart. -/
inductive IllegalReason where
  /-- `RSV` is not 0 (R48). -/
  | reservedBits
  /-- `OPC` is none of 0x01, 0x02, 0x03, 0x04. -/
  | unknownOpcode
  /-- the opcode does not allow this `LEN` (R47). -/
  | wrongLength
  deriving DecidableEq, Repr

/-- The verdict on a header word (R53). -/
inductive HeaderVerdict where
  | seedDefault
  | seedScalar
  | seedArray (len : BitVec 32)
  | next
  | illegal (why : IllegalReason)
  deriving DecidableEq, Repr

/-- `DECODE(h)` of rule R53: total, needs no state, checks in the order of the rule. -/
def decodeHeader (h : Word) : HeaderVerdict :=
  if rsvField h ≠ 0 then .illegal .reservedBits
  else if opcField h = 0x01 then
    if lenField h = 0 then .seedDefault else .illegal .wrongLength
  else if opcField h = 0x02 then
    if lenField h = 1 then .seedScalar else .illegal .wrongLength
  else if opcField h = 0x03 then .seedArray (lenField h)
  else if opcField h = 0x04 then
    if lenField h = 0 then .next else .illegal .wrongLength
  else .illegal .unknownOpcode

/-- One whole command at the front of the stream: its header, its `LEN` payload words, and the words after it. -/
structure Frame where
  header : Word
  payload : List Word
  rest : List Word
  deriving DecidableEq, Repr

/-- Framing (R41): the first word is a header, the next `LEN` words its payload, legal or not. `none` while the header or some
payload word has not arrived (R45). -/
def frame : List Word → Option Frame
  | [] => none
  | h :: ws =>
    if ws.length < (lenField h).toNat then none
    else some
      { header := h
        payload := ws.take (lenField h).toNat
        rest := ws.drop (lenField h).toNat }

/-- The operand of `SEED_SCALAR`: `payload[0]`, used whole (R43). A framed `SEED_SCALAR` has exactly one payload word. -/
def scalarOperand (payload : List Word) : Word := payload.headD 0

/-- What the decoder reads at the front of the stream of command words. -/
inductive Decoded where
  /-- the header or part of the payload has not arrived: the block waits (R45). -/
  | incomplete
  /-- an illegal header; its payload is taken from the stream and discarded (R49). -/
  | illegal (why : IllegalReason) (header : Word) (rest : List Word)
  /-- a legal command, and the words after it. -/
  | command (i : Instr) (rest : List Word)
  deriving DecidableEq, Repr

/-- The verdict on a framed command, with the operands assembled from its payload (R43). -/
def decodeFrame (f : Frame) : Decoded :=
  match decodeHeader f.header with
  | .seedDefault => .command .seedDefault f.rest
  | .seedScalar => .command (.seedScalar (scalarOperand f.payload)) f.rest
  | .seedArray _ => .command (.seedArray f.payload) f.rest
  | .next => .command .next f.rest
  | .illegal why => .illegal why f.header f.rest

/-- The decoder: total on every sequence of command words (R54). -/
def decode (words : List Word) : Decoded :=
  match frame words with
  | none => .incomplete
  | some f => decodeFrame f

/-! The encoder. -/

/-- A header with `RSV = 0` (R42). -/
def mkHeader (opc : BitVec 8) (len : BitVec 32) : Word := opc ++ 0#24 ++ len

/-- The header word of a command (R46). -/
def headerOf : Instr → Word
  | .seedDefault => mkHeader 0x01 0
  | .seedScalar _ => mkHeader 0x02 1
  | .seedArray key => mkHeader 0x03 (BitVec.ofNat 32 key.length)
  | .next => mkHeader 0x04 0

/-- The payload words of a command (R46). -/
def payloadOf : Instr → List Word
  | .seedDefault => []
  | .seedScalar seed => [seed]
  | .seedArray key => key
  | .next => []

/-- The command words a command stands for (R51). -/
def encode (i : Instr) : List Word := headerOf i :: payloadOf i

/-! The opcode table's numbering of an instruction's bits (assumption log 9): bit 0 is the least significant bit of the header word,
and payload word `k` is bits `64 * (k + 1) + 63` to `64 * (k + 1)`. -/

/-- `n` payload words cut from the bits of `v`, the first one lowest. -/
def payloadWords : Nat → Nat → List Word
  | 0, _ => []
  | n + 1, v => BitVec.ofNat 64 v :: payloadWords n (v / 2 ^ 64)

/-- The command words of an instruction whose bits are `w`, `nbits` of them given and every bit above them 0. -/
def tableWords (nbits w : Nat) : List Word :=
  BitVec.ofNat 64 (w % 2 ^ nbits) ::
    payloadWords (lenField (BitVec.ofNat 64 (w % 2 ^ nbits))).toNat (w % 2 ^ nbits / 2 ^ 64)

/-- The instruction the decoder reads from a row of the opcode table. -/
def decodeTableWord (nbits w : Nat) : Option Instr :=
  match decode (tableWords nbits w) with
  | .command i _ => some i
  | .illegal _ _ _ => none
  | .incomplete => none

end Sys2Proof
end

