-- ==== Sys2Proof/Machine/State.lean ====
section
/-! DEFINITION. The state of the MT64 core and its two channels (10_state.md, 30_encoding.md rule R39), the reasons a step could
stop, and the state right after reset (R23, R101). -/

namespace Sys2Proof.Machine

/-- The `state` array: exactly 312 words at all times (R11, R14), word-indexed (R26). -/
abbrev StateArray := Vector Word 312

/-- An item of the response port: the pair `(status, data)` (R39). -/
structure Response where
  status : BitVec 8
  data : Word
  deriving DecidableEq, Repr

/-- The names of the status codes the block sends (R44). The codes are `Status.code` in Machine/Ops.lean. -/
inductive Status where
  | ok
  | invalidSeed
  | notSeeded
  | illegalCommand
  deriving DecidableEq, Repr

/-- The architectural state `(state, index)` (R11, R16), the contents of the two ports and the level of the reset input (R39), and
one field of the model's own. -/
structure State where
  /-- `state[0]` to `state[311]` (R11). -/
  state : StateArray
  /-- the 9-bit sequencing register (R16): 0 to 311 the next unread word, 312 exhausted, 313 unseeded. -/
  index : BitVec 9
  /-- the command port: words sent by the host and not yet taken, oldest first (R39). -/
  cmdPort : List Word
  /-- the response port: responses sent by the block and not yet taken by the host, oldest first (R39). -/
  rspPort : List Response
  /-- the reset input, asserted or not (R39, R100). -/
  rst : Bool
  /-- MODEL'S OWN (assumption log 1): which reset the array's unspecified content belongs to. -/
  resetCount : Nat
  deriving DecidableEq, Repr

/-- The reasons for which a step stops the machine with a fault: none. Nothing in the block can fail (R84), no index leaves its
range (R27), and an error of a command is a response, after which the block goes on (R88, R89). -/
inductive Fault
  deriving DecidableEq, Repr

/-- The reasons for which a step answers that the model gives no meaning. -/
inductive Refusal where
  /-- Raised by an arm of `exec` that has no meaning yet, and by nothing else (safe: no claim follows from it). No arm raises it. -/
  | notModelled (mnemonic : String)
  deriving DecidableEq, Repr

/-- The unspecified content of the array after reset number `r` (R15, R23, V1). -/
def unspecifiedArray (r : Nat) : StateArray :=
  ⟨⟨(List.range 312).map (Config.unspecifiedWord r)⟩, by simp⟩

/-- The state right after reset (R23, R101, R102): `index` at the sentinel 313, the array unspecified, both ports empty. -/
def State.reset : State where
  state := unspecifiedArray 0
  index := 313
  cmdPort := []
  rspPort := []
  rst := false
  resetCount := 0

end Sys2Proof.Machine
end

