-- ==== Sys2Proof/Machine/Ops.lean ====
section
/-! DEFINITION. The shared operations: the loop form of the pseudocode, access to the `state` array (20_memory.md), responses and the
error entry (60_exceptions.md), reset (70_reset_and_hazards.md), and what the host does at the ports (R8, R39). -/

namespace Sys2Proof.Machine

/-- `for k from 0 to n - 1 inclusive: body`, in that order (00_scope.md section 6.4). The body sees the value the iterations before
it left, so reads and writes happen one at a time in pseudocode order (R31). -/
def forUp {α : Type} : (n : Nat) → (Fin n → α → α) → α → α
  | 0, _, x => x
  | n + 1, body, x => body (Fin.last n) (forUp n (fun k => body k.castSucc) x)

/-! The `state` array. An index that is not below 312 cannot be written down (R27). -/

/-- `state[e]` as a value: `MemRead(e, 8)` (R27). -/
def readWord (a : StateArray) (e : Nat) (h : e < 312 := by omega) : Word := a[e]

/-- `state[e] <- v`: `MemWrite(e, 8, v)`, the whole word (R30). -/
def writeWord (a : StateArray) (e : Nat) (v : Word) (h : e < 312 := by omega) : StateArray := a.set e v

/-- `p ^ (p >> 62)`, the term common to the three seeding recurrences (R55, R60, R61). -/
def fold62 (p : Word) : Word := p ^^^ (p >>> 62)

/-! Updates of single fields of the state. -/

/-- The whole `state` array replaced. -/
def setWords (a : StateArray) (s : State) : State := { s with state := a }

/-- `index <- v` (R18). -/
def setIndex (v : BitVec 9) (s : State) : State := { s with index := v }

/-- The command port left with the words `ws`. -/
def setCmdPort (ws : List Word) (s : State) : State := { s with cmdPort := ws }

/-- One response sent, behind those not yet taken (R39, R45). -/
def sendResponse (r : Response) (s : State) : State := { s with rspPort := s.rspPort ++ [r] }

/-! Responses. -/

/-- The status codes (R44, R80). -/
def Status.code : Status → BitVec 8
  | .ok => 0x00
  | .invalidSeed => 0x01
  | .notSeeded => 0x02
  | .illegalCommand => 0x03

/-- `respond(OK, v)`: the normal response (R43). -/
def respondOk (v : Word) (s : State) : State := sendResponse ⟨Status.ok.code, v⟩ s

/-- `raise <Error>(header)`, the error entry (R88): the one effect is the response. There is no handler and nothing to save or to
return from (R89): the block goes on with the next command. -/
def raiseError (e : Status) (header : Word) (s : State) : State := sendResponse ⟨e.code, header⟩ s

/-- The execution of an illegal command (R49, R83). Its payload is discarded by the framing. -/
def execIllegal (header : Word) (s : State) : State := raiseError .illegalCommand header s

/-! Reset. -/

/-- What a reset leaves (R100 to R102), whatever the block was doing: a state like the one after power-on, whose array holds
unspecified content of its own (assumption log 1), with the reset input released (assumption log 4). -/
def takeReset (s : State) : State :=
  { State.reset with
    state := unspecifiedArray (s.resetCount + 1)
    resetCount := s.resetCount + 1 }

/-! The host's side of the ports (R8, R39). A host acts between two steps of the block (assumption log 3). -/

/-- The host sends command words. -/
def hostSend (ws : List Word) (s : State) : State := { s with cmdPort := s.cmdPort ++ ws }

/-- The host takes the oldest response, if there is one. -/
def hostTake (s : State) : Option (Response × State) :=
  match s.rspPort with
  | [] => none
  | r :: rs => some (r, { s with rspPort := rs })

/-- The host asserts the reset input (`RESET` of the listings, R52). -/
def hostReset (s : State) : State := { s with rst := true }

end Sys2Proof.Machine
end

