-- ==== Sys2Proof/Machine/Flags.lean ====
section
/-! DEFINITION. The block has no status flags (R21). The two conditions of the output sequencer are computed from `index` when `NEXT`
runs and are stored nowhere. -/

namespace Sys2Proof.Machine

/-- `index == 313`: no seeding command has succeeded since reset (R16, R21). -/
abbrev unseeded (index : BitVec 9) : Prop := index = sentinel

/-- `index >= 312`: the next `NEXT` of a seeded block twists first (R21, R75). -/
abbrev exhausted (index : BitVec 9) : Prop := exhaustedIndex ≤ index

/-- A buffer that is not exhausted has an unread word at `index` (R27). -/
theorem toNat_lt_of_not_exhausted {index : BitVec 9} (h : ¬ exhausted index) : index.toNat < 312 := by
  simp only [exhausted, exhaustedIndex] at h
  bv_omega

end Sys2Proof.Machine
end

