-- ==== Sys2Proof/Machine/Twist.lean ====
section
/-! DEFINITION. The twist engine (42_twist.md): `COMBINE`, `TWIST_WORD`, `TWIST`. The array is rewritten in place, in ascending order
(R72). -/

namespace Sys2Proof.Machine

/-- `COMBINE(u, l)` (R66). -/
def combine (u l : Word) : Word := (u &&& upperMask) ||| (l &&& lowerMask)

/-- `TWIST_WORD(y, src)` (R67). -/
def twistWord (y src : Word) : Word := src ^^^ (y >>> 1) ^^^ magic (y.getLsbD 0)

/-- The loop body of the first part, `i` from 0 to 155 (R68). -/
def twistLowStep (i : Nat) (hi : i ≤ 155) (a : StateArray) : StateArray :=
  writeWord a i (twistWord (combine (readWord a i) (readWord a (i + 1))) (readWord a (i + 156)))

/-- The loop body of the second part, `i` from 156 to 310 (R69). -/
def twistHighStep (i : Nat) (hi : 156 ≤ i ∧ i ≤ 310) (a : StateArray) : StateArray :=
  writeWord a i (twistWord (combine (readWord a i) (readWord a (i + 1))) (readWord a (i - 156)))

/-- The last step, `i = 311` (R70). -/
def twistLastStep (a : StateArray) : StateArray :=
  writeWord a 311 (twistWord (combine (readWord a 311) (readWord a 0)) (readWord a 155))

/-- The first part, 156 iterations (R68). -/
def twistLow (a : StateArray) : StateArray := forUp 156 (fun k => twistLowStep k.val (by omega)) a

/-- The second part, 155 iterations (R69). -/
def twistHigh (a : StateArray) : StateArray := forUp 155 (fun k => twistHighStep (156 + k.val) (by omega)) a

/-- What `TWIST` does to the array: the three parts in order. -/
def twistWords (a : StateArray) : StateArray := twistLastStep (twistHigh (twistLow a))

/-- `TWIST` (R65, R71): the array regenerated, then `index <- 0`. -/
def twist (s : State) : State := setIndex 0 (setWords (twistWords s.state) s)

end Sys2Proof.Machine
end

