-- ==== Sys2Proof/Machine/Next.lean ====
section
/-! DEFINITION. The tempering pipeline and the output sequencer (43_temper_next.md): `TEMPER` and `NEXT`. -/

namespace Sys2Proof.Machine

/-- `TEMPER(y0)` (R73): each step uses the result of the step before. A pure function (R74). -/
def temper (y0 : Word) : Word :=
  let y1 := y0 ^^^ ((y0 >>> 29) &&& temperMask1)
  let y2 := y1 ^^^ ((y1 <<< 17) &&& temperMask2)
  let y3 := y2 ^^^ ((y2 <<< 37) &&& temperMask3)
  y3 ^^^ (y3 >>> 43)

/-- The part of `NEXT` after its guard (R75): temper the word at `index`, advance `index`, respond. The array is not written. -/
def drawWord (s : State) (h : s.index.toNat < 312) : State :=
  respondOk (temper (readWord s.state s.index.toNat h)) (setIndex (s.index + 1) s)

/-- `NEXT` (R75). The check of the unseeded block comes before the twist (90_conflicts.md C5). -/
def execNext (s : State) : Host.Outcome State Fault Refusal :=
  if unseeded s.index then .next (raiseError .notSeeded (headerOf .next) s)
  else if h : exhausted s.index then .next (drawWord (twist s) (by simp [twist, setIndex]))
  else .next (drawWord s (toNat_lt_of_not_exhausted h))

end Sys2Proof.Machine
end

