-- ==== Sys2Proof/Machine/Operands.lean ====
section
/-! DEFINITION. How operands and cursors enter a computation: the payload of `SEED_ARRAY` and its cursor `j` (R29, R60), the array
cursor `i` (R59), and `zext_64` (00_scope.md section 6.1). The operands themselves are assembled by the decoder (R43). -/

namespace Sys2Proof.Machine

/-- `zext_64(v)`: a cursor as a word (92_eei_decisions.md D16). -/
def zext64 (v : Nat) : Word := BitVec.ofNat 64 v

/-- `key[j]` (R29). -/
def keyWord (key : List Word) (j : Fin key.length) : Word := key[j]

/-- The cursor `i` at a point where it is used as an index: 1 to 311 (R59). -/
abbrev StateCursor := { i : Nat // 1 ≤ i ∧ i ≤ 311 }

/-- The value every forward pass starts its cursor at (R60). -/
def firstCursor : StateCursor := ⟨1, by omega⟩

/-- `ADVANCE_I` (R59): at the end of the array copy the last word over word 0 and start again at 1. -/
def advanceI (a : StateArray) (i : StateCursor) : StateArray × StateCursor :=
  if h : i.val + 1 = 312 then (writeWord a 0 (readWord a 311), firstCursor)
  else (a, ⟨i.val + 1, by omega⟩)

/-- `j <- j + 1`, and `j <- 0` when that reaches the key's length (R60). -/
def advanceJ {len : Nat} (j : Fin len) : Fin len :=
  if h : j.val + 1 = len then ⟨0, by omega⟩ else ⟨j.val + 1, by omega⟩

end Sys2Proof.Machine
end

