-- ==== Sys2Proof/Machine/SeedScalar.lean ====
section
/-! DEFINITION. Scalar seeding (40_seed_scalar.md): `INIT_SCALAR`, `SEED_SCALAR`, `SEED_DEFAULT`. -/

namespace Sys2Proof.Machine

/-- The loop body of `INIT_SCALAR` for `i` (R55). -/
def initScalarStep (i : Nat) (hi : 1 ≤ i ∧ i ≤ 311) (a : StateArray) : StateArray :=
  writeWord a i (multF * fold62 (readWord a (i - 1)) + zext64 i)

/-- What `INIT_SCALAR` does to the array (R55): the loop runs for `i` from 1 to 311. -/
def initScalarWords (seed : Word) (a : StateArray) : StateArray :=
  forUp 311 (fun k => initScalarStep (k.val + 1) (by omega)) (writeWord a 0 seed)

/-- `INIT_SCALAR(seed)` (R55). -/
def initScalar (seed : Word) (s : State) : State :=
  setIndex exhaustedIndex (setWords (initScalarWords seed s.state) s)

/-- `SEED_SCALAR seed` (R56). -/
def execSeedScalar (seed : Word) (s : State) : Host.Outcome State Fault Refusal :=
  .next (respondOk 0 (initScalar seed s))

/-- `SEED_DEFAULT` (R57). -/
def execSeedDefault (s : State) : Host.Outcome State Fault Refusal :=
  .next (respondOk 0 (initScalar defaultSeed s))

end Sys2Proof.Machine
end

