-- ==== Sys2Proof/Machine/SeedArray.lean ====
section
/-! DEFINITION. Array seeding (41_seed_array.md): `MIX_FWD`, `MIX_REV`, `FINALIZE`, `SEED_ARRAY`. `ADVANCE_I` is in Operands.lean. -/

namespace Sys2Proof.Machine

/-- What the forward pass carries from one iteration to the next (R60): transient, no part of the state (R20). -/
structure FwdPass (len : Nat) where
  arr : StateArray
  i : StateCursor
  j : Fin len

/-- One iteration of `MIX_FWD` (R60). The `j` that is added is the cursor before it advances. -/
def mixFwdStep (key : List Word) (p : FwdPass key.length) : FwdPass key.length :=
  have hi := p.i.property
  let m := fold62 (readWord p.arr (p.i.val - 1)) * multFwd
  let v := ((readWord p.arr p.i.val) ^^^ m) + keyWord key p.j + zext64 p.j.val
  let q := advanceI (writeWord p.arr p.i.val v) p.i
  { arr := q.1, i := q.2, j := advanceJ p.j }

/-- `n` iterations of `MIX_FWD`, from `i = 1` and `j = 0`. -/
def mixFwdLoop (key : List Word) (hk : 0 < key.length) (n : Nat) (a : StateArray) : FwdPass key.length :=
  forUp n (fun _ => mixFwdStep key) { arr := a, i := firstCursor, j := ⟨0, hk⟩ }

/-- `MIX_FWD(key, len)` (R60): `max(312, len)` iterations. Its result's `i` is the cursor that `MIX_REV` goes on from. -/
def mixFwd (key : List Word) (hk : 0 < key.length) (a : StateArray) : FwdPass key.length :=
  mixFwdLoop key hk (max 312 key.length) a

/-- One iteration of `MIX_REV` (R61). The `i` that is subtracted is the cursor before it advances. -/
def mixRevStep (p : StateArray × StateCursor) : StateArray × StateCursor :=
  have hi := p.2.property
  let m := fold62 (readWord p.1 (p.2.val - 1)) * multRev
  let v := ((readWord p.1 p.2.val) ^^^ m) - zext64 p.2.val
  advanceI (writeWord p.1 p.2.val v) p.2

/-- `n` iterations of `MIX_REV` from the cursor `i0`. -/
def mixRevLoop (i0 : StateCursor) (n : Nat) (a : StateArray) : StateArray × StateCursor :=
  forUp n (fun _ => mixRevStep) (a, i0)

/-- `MIX_REV(i0)` (R61): 311 iterations. -/
def mixRev (i0 : StateCursor) (a : StateArray) : StateArray := (mixRevLoop i0 311 a).1

/-- `FINALIZE` (R62): an assignment of the whole word. -/
def finalize (a : StateArray) : StateArray := writeWord a 0 topWord

/-- Steps 1 to 4 of `SEED_ARRAY` on the array (R63). -/
def seedArrayWords (key : List Word) (hk : 0 < key.length) (a : StateArray) : StateArray :=
  let p := mixFwd key hk (initScalarWords baseSeed a)
  finalize (mixRev p.i p.arr)

/-- `SEED_ARRAY key[0], …, key[len-1]` (R63). The check of the empty key comes before anything is written, and `index` is set by
step 1. -/
def execSeedArray (key : List Word) (s : State) : Host.Outcome State Fault Refusal :=
  if hk : 0 < key.length then
    .next (respondOk 0 (setWords (seedArrayWords key hk s.state) (initScalar baseSeed s)))
  else .next (raiseError .invalidSeed (headerOf (.seedArray key)) s)

end Sys2Proof.Machine
end

