-- ==== Sys2Proof/Machine/Dispatch.lean ====
section
/-! DEFINITION. One arm per command: the table of 30_encoding.md rule R46. -/

namespace Sys2Proof.Machine

def exec (i : Instr) (s : State) : Host.Outcome State Fault Refusal :=
  match i with
  | .seedDefault => Sys2Proof.Machine.execSeedDefault s
  | .seedScalar seed => Sys2Proof.Machine.execSeedScalar seed s
  | .seedArray key => Sys2Proof.Machine.execSeedArray key s
  | .next => Sys2Proof.Machine.execNext s

end Sys2Proof.Machine
end

