-- ==== Sys2Proof/Machine/Step.lean ====
section
/-! DEFINITION. One step of the block: one whole command (R7, R45). Reset overrides everything (R86). While no whole command stands at
the command port the block waits and nothing changes (R45, R99; assumption log 2). -/

namespace Sys2Proof.Machine

/-- One step. A command's words leave the port when it is executed, and with them the payload of an illegal command (R49). -/
def step (s : State) : Host.Outcome State Fault Refusal :=
  if s.rst then .next (takeReset s)
  else
    match decode s.cmdPort with
    | .incomplete => .next s
    | .illegal _ header rest => .next (execIllegal header (setCmdPort rest s))
    | .command i rest => exec i (setCmdPort rest s)

/-- `s` with the command of an opcode-table row as the oldest words of the command port and the reset input released, so that the
next step runs exactly that command (assumption log 5). -/
def State.withFetchWord (s : State) (nbits w : Nat) : State :=
  { s with cmdPort := tableWords nbits w ++ s.cmdPort, rst := false }

end Sys2Proof.Machine
end

