-- ==== Sys2Proof/Safety.lean ====
section
/-! DEFINITION. What counts as a good state and a good run, in the terms the statements use: the invariants, the place of a block in
its output sequence (R77), what a host cannot tell apart (R78), and the execution of several commands in order (R45). -/

namespace Sys2Proof

/-- The seeding commands that succeed (R58): all but `SEED_ARRAY` with no seed word. -/
def Instr.seedsBlock : Instr → Prop
  | .seedDefault => True
  | .seedScalar _ => True
  | .seedArray key => key ≠ []
  | .next => False

end Sys2Proof

namespace Sys2Proof.Machine

/-- The values of `index` and of a response's status that a block shows between two commands: `index` is 1 to 312 or the sentinel
313 (R16, R18, and R76: no command ends with `index = 0`), and no reserved status is sent (R44). -/
structure LegalValues (s : State) : Prop where
  index_pos : 1 ≤ s.index
  index_le : s.index ≤ 313
  statuses : ∀ r ∈ s.rspPort, r.status ≤ 3

/-- The array as a successful seeding command leaves it (R58): scalar seeding of some seed, or array seeding of some key. What the
array held before (`b`) has no influence. -/
inductive FreshlySeeded : StateArray → Prop where
  | scalar (seed : Word) (b : StateArray) : FreshlySeeded (initScalarWords seed b)
  | array (key : List Word) (hk : 0 < key.length) (b : StateArray) : FreshlySeeded (seedArrayWords key hk b)

/-- `index` after `n` draws from a fresh buffer (R77): 312 for `n = 0`, else `((n - 1) mod 312) + 1`. -/
def placeAfter (n : Nat) : BitVec 9 := BitVec.ofNat 9 ((n + 311) % 312 + 1)

/-- How many twists `n` draws from a fresh buffer have run (R77): `ceil(n / 312)`. -/
def twistsAfter (n : Nat) : Nat := (n + 311) / 312

/-- The block is unseeded, or it stands `n` draws after a seeding command: its array is the freshly seeded one twisted `ceil(n / 312)`
times, and `index` is the place of R77. -/
def OnSequence (s : State) : Prop :=
  s.index = 313 ∨
    ∃ a n, FreshlySeeded a ∧ s.index = placeAfter n ∧ s.state = twistWords^[twistsAfter n] a

/-- Two blocks that no host can tell apart: they agree in everything, but for the unspecified content of the array of an unseeded
block (R15, R24, R78). The model's own `resetCount` is not compared. -/
structure Alike (s t : State) : Prop where
  index_eq : s.index = t.index
  cmdPort_eq : s.cmdPort = t.cmdPort
  rspPort_eq : s.rspPort = t.rspPort
  rst_eq : s.rst = t.rst
  state_eq : s.index ≠ 313 → s.state = t.state

/-- The commands executed one after another (R45), stopping at the first fault or refusal. -/
def execAll : List Instr → State → Host.Outcome State Fault Refusal
  | [], s => .next s
  | i :: is, s =>
    match exec i s with
    | .next t => execAll is t
    | .fault r => .fault r
    | .refused r => .refused r

/-- A run is complete (R111): every word has been taken, so no payload is outstanding, and no reset is waiting. -/
def State.complete (s : State) : Prop := s.cmdPort = [] ∧ s.rst = false

end Sys2Proof.Machine
end

