-- ==== Sys2Proof/Certificates/Slice0/Obligations.lean ====
section
/-! DEFINITION. The statements about the MT64 core. Each docstring names the rule of spec/ it formalises. Numbers stand here as the spec
writes them, not under the model's names. -/

open Sys2Proof Sys2Proof.Machine

/-! ## Reset and the host's side of the ports -/

/-- R23, R101, R102. -/
def Obligations.ResetLeavesUnseededIdleBlock : Prop :=
  State.reset.index = 313 ∧ State.reset.cmdPort = [] ∧ State.reset.rspPort = [] ∧ decode State.reset.cmdPort = .incomplete

/-- R86, R102: reset overrides everything and abandons all work. That the step releases the reset input is the model's choice
(assumption log 4) and not claimed here. -/
def Obligations.ResetInputOverridesAllWork : Prop :=
  ∀ s : State, s.rst = true →
    ∃ t, step s = .next t ∧ t.index = 313 ∧ t.cmdPort = [] ∧ t.rspPort = []

/-- R39, R45: words that arrive behind a command already whole do not disturb it. That they arrive between two steps is the model's
choice (assumption log 3). -/
def Obligations.LaterWordsDoNotDisturbACommand : Prop :=
  ∀ (s : State) (ws : List Word), s.rst = false → decode s.cmdPort ≠ .incomplete →
    ∃ t, step s = .next t ∧ step (hostSend ws s) = .next (hostSend ws t)

/-- R39: what the host takes from the response port has no influence on the block, and responses come out in the order sent.
It also covers a block that waits for words: that its step answers a next state is the model's choice (assumption log 2), where the
spec's V6 calls the block stuck. That the host takes a response between two steps is the model's choice too (assumption logs 3 and
16). -/
def Obligations.TakingResponsesDoesNotDisturbTheBlock : Prop :=
  ∀ (s s' : State) (r : Response), s.rst = false → hostTake s = some (r, s') →
    ∃ t t', step s = .next t ∧ step s' = .next t' ∧ hostTake t = some (r, t') ∧ t.rspPort = r :: t'.rspPort

/-! ## The state array and the constants -/

/-- R30, and R27 for the read of what was written. -/
def Obligations.WriteReplacesOneWholeWord : Prop :=
  ∀ (a : StateArray) (e : Nat) (v : Word) (he : e < 312),
    readWord (writeWord a e v he) e he = v ∧
    ∀ (f : Nat) (hf : f < 312), f ≠ e → readWord (writeWord a e v he) f hf = readWord a f hf

/-- R28. -/
def Obligations.MagicTable : Prop := magic false = 0x0000000000000000 ∧ magic true = 0xB5026F5AA96619E9

/-! ## Framing and decoding -/

/-- R42, R46, R51 and 95_test_vectors.md section 2.7: words written out from the encoding. -/
def Obligations.SampleWordsDecode : Prop :=
  decode [0x0100000000000000] = .command .seedDefault [] ∧
  decode [0x0200000000000001, 0xFFFFFFFFFFFFFFFF] = .command (.seedScalar 0xFFFFFFFFFFFFFFFF) [] ∧
  decode [0x0300000000000002, 0x12345, 0x23456, 0x7] = .command (.seedArray [0x12345, 0x23456]) [0x7] ∧
  decode [0x0300000000000000] = .command (.seedArray []) [] ∧
  decode [0x0400000000000000, 0x0400000000000000] = .command .next [0x0400000000000000] ∧
  decode [0x0400000000000001, 0x7] = .illegal .wrongLength 0x0400000000000001 [] ∧
  decode [0x0300000100000000] = .illegal .reservedBits 0x0300000100000000 [] ∧
  decode [0x0000000000000000] = .illegal .unknownOpcode 0 []

/-- R53: the verdict on every header word, by the header words each command has (R46, R47). Every other word is illegal. -/
def Obligations.HeaderVerdicts : Prop :=
  ∀ h : Word,
    (decodeHeader h = .seedDefault ↔ h = 0x0100000000000000) ∧
    (decodeHeader h = .seedScalar ↔ h = 0x0200000000000001) ∧
    (∀ n : BitVec 32, decodeHeader h = .seedArray n ↔ h = 0x0300000000000000 + n.zeroExtend 64) ∧
    (decodeHeader h = .next ↔ h = 0x0400000000000000) ∧
    ((∃ why, decodeHeader h = .illegal why) ↔
      h ≠ 0x0100000000000000 ∧ h ≠ 0x0200000000000001 ∧ (∀ n : BitVec 32, h ≠ 0x0300000000000000 + n.zeroExtend 64) ∧
        h ≠ 0x0400000000000000)

/-- R49, first sentence, in the numbers of R42: `OPC` is `h / 2^56`, `RSV` is `h / 2^32 mod 2^24`, `LEN` is `h mod 2^32`. -/
def Obligations.IllegalHeadersExactly : Prop :=
  ∀ h : Word,
    (∃ why, decodeHeader h = .illegal why) ↔
      (h.toNat / 2 ^ 56 ∉ [0x01, 0x02, 0x03, 0x04] ∨ h.toNat / 2 ^ 32 % 2 ^ 24 ≠ 0 ∨
        (h.toNat / 2 ^ 56 ∈ [0x01, 0x04] ∧ h.toNat % 2 ^ 32 ≠ 0) ∨ (h.toNat / 2 ^ 56 = 0x02 ∧ h.toNat % 2 ^ 32 ≠ 1))

/-- Decode and encode agree, for every command and every operand the encoding admits, whatever words follow (R41, R43, R46). -/
def Obligations.DecodeOfEncode : Prop :=
  ∀ (i : Instr) (rest : List Word), i.wellFormed = true → decode (encode i ++ rest) = .command i rest

/-- The other direction: the words a command was decoded from are the command's own words (R41, R46). -/
def Obligations.EncodeOfDecode : Prop :=
  ∀ (ws rest : List Word) (i : Instr), decode ws = .command i rest → i.wellFormed = true ∧ ws = encode i ++ rest

/-! ## One step -/

/-- R45: a step is the execution of the command at the front of the port, its words taken. -/
def Obligations.StepRunsTheDecodedCommand : Prop :=
  ∀ (s : State) (i : Instr) (rest : List Word), s.rst = false → decode s.cmdPort = .command i rest →
    step s = exec i { s with cmdPort := rest }

/-- R49, R83: an illegal command is framed like any other, changes neither `state` nor `index`, and is answered `(0x03, header)`. -/
def Obligations.IllegalCommandIsAnsweredAndDiscarded : Prop :=
  ∀ (s : State) (h : Word) (payload rest : List Word), s.rst = false → s.cmdPort = h :: (payload ++ rest) →
    payload.length = h.toNat % 2 ^ 32 →
    (h.toNat / 2 ^ 56 ∉ [0x01, 0x02, 0x03, 0x04] ∨ h.toNat / 2 ^ 32 % 2 ^ 24 ≠ 0 ∨
      (h.toNat / 2 ^ 56 ∈ [0x01, 0x04] ∧ h.toNat % 2 ^ 32 ≠ 0) ∨ (h.toNat / 2 ^ 56 = 0x02 ∧ h.toNat % 2 ^ 32 ≠ 1)) →
    step s = .next { s with cmdPort := rest, rspPort := s.rspPort ++ [⟨0x03, h⟩] }

/-- R41, R45: the block waits and sends nothing while a header or a payload word is missing; a whole command, legal or not, is taken
with exactly its `1 + LEN` words and gets exactly one response, behind those already sent. That a wait is the step `step s = .next s` is
the model's choice (assumption log 2); the spec's V6 calls the block stuck there. -/
def Obligations.EveryWholeCommandGetsOneResponse : Prop :=
  ∀ s : State, s.rst = false →
    (s.cmdPort = [] → step s = .next s) ∧
    ∀ (h : Word) (ws : List Word), s.cmdPort = h :: ws →
      (ws.length < h.toNat % 2 ^ 32 → step s = .next s) ∧
      (h.toNat % 2 ^ 32 ≤ ws.length →
        ∃ t r, step s = .next t ∧ t.cmdPort = ws.drop (h.toNat % 2 ^ 32) ∧ t.rspPort = s.rspPort ++ [r] ∧ t.rst = false)

/-- R87 (and R80, R44): the checks in their order decide the one response; an error's datum is the header. -/
def Obligations.ChecksInOrderDecideTheResponse : Prop :=
  ∀ (s : State) (h : Word) (ws : List Word), s.rst = false → s.cmdPort = h :: ws → h.toNat % 2 ^ 32 ≤ ws.length →
    ∃ t r, step s = .next t ∧ t.rspPort = s.rspPort ++ [r] ∧ (r.status ≠ 0x00 → r.data = h) ∧
      r.status =
        (if h.toNat / 2 ^ 32 % 2 ^ 24 ≠ 0 then 0x03
        else if h.toNat / 2 ^ 56 ∉ [0x01, 0x02, 0x03, 0x04] then 0x03
        else if h.toNat / 2 ^ 56 ∈ [0x01, 0x04] ∧ h.toNat % 2 ^ 32 ≠ 0 then 0x03
        else if h.toNat / 2 ^ 56 = 0x02 ∧ h.toNat % 2 ^ 32 ≠ 1 then 0x03
        else if h.toNat / 2 ^ 56 = 0x03 ∧ h.toNat % 2 ^ 32 = 0 then 0x01
        else if h.toNat / 2 ^ 56 = 0x04 ∧ s.index = 313 then 0x02
        else 0x00)

/-- R88: an error response is the one effect of the command that raised it, and its datum is the command's header. -/
def Obligations.ErrorsChangeNothingElse : Prop :=
  ∀ (s t : State) (r : Response), s.rst = false → step s = .next t → t.rspPort = s.rspPort ++ [r] → r.status ≠ 0 →
    (r.status = 0x01 ∨ r.status = 0x02 ∨ r.status = 0x03) ∧
    ∃ ws, s.cmdPort = r.data :: ws ∧
      t = { s with cmdPort := ws.drop (r.data.toNat % 2 ^ 32), rspPort := s.rspPort ++ [r] }

/-- R84 and, for a block that waits for words, R45: no step of the block stops. That a wait answers a next state is the model's choice
(assumption log 2), where the spec's V6 calls the block stuck. That `Fault` has no constructor is the model's inference from R84
(assumption log 8); no step is a refusal either. -/
def Obligations.NoStepStops : Prop := ∀ s : State, ∃ t, step s = .next t

/-! ## Scalar seeding -/

/-- R55, R56: `SEED_SCALAR` succeeds in every state, fills the array by the recurrence, sets `index` to 312, answers `(OK, 0)` and
touches nothing else. -/
def Obligations.ScalarSeedingFillsTheArray : Prop :=
  ∀ (seed : Word) (s : State),
    encode (.seedScalar seed) = [0x0200000000000001, seed] ∧
    ∃ a : StateArray,
      exec (.seedScalar seed) s = .next { s with state := a, index := 312, rspPort := s.rspPort ++ [⟨0x00, 0⟩] } ∧
      readWord a 0 = seed ∧
      ∀ (i : Nat) (hi : 1 ≤ i ∧ i ≤ 311),
        readWord a i = 6364136223846793005 * (readWord a (i - 1) ^^^ (readWord a (i - 1) >>> 62)) + BitVec.ofNat 64 i

/-- R57: `SEED_DEFAULT` does the same with the seed 5489. -/
def Obligations.DefaultSeedingFillsTheArray : Prop :=
  ∀ s : State,
    encode .seedDefault = [0x0100000000000000] ∧ exec .seedDefault s = exec (.seedScalar 5489) s ∧
    ∃ a : StateArray,
      exec .seedDefault s = .next { s with state := a, index := 312, rspPort := s.rspPort ++ [⟨0x00, 0⟩] } ∧
      readWord a 0 = 5489 ∧
      ∀ (i : Nat) (hi : 1 ≤ i ∧ i ≤ 311),
        readWord a i = 6364136223846793005 * (readWord a (i - 1) ^^^ (readWord a (i - 1) >>> 62)) + BitVec.ofNat 64 i

/-- R58: every seeding command that succeeds leaves one and the same array and `index = 312`, whatever the state before; and it does
succeed. -/
def Obligations.SeedingForgetsHistory : Prop :=
  ∀ i : Instr, i.seedsBlock →
    ∃ a : StateArray, ∀ s : State,
      exec i s = .next { s with state := a, index := 312, rspPort := s.rspPort ++ [⟨0x00, 0⟩] }

/-! ## Array seeding -/

/-- R59: the cursor copies word 311 over word 0 and returns to 1 at the end of the array, and otherwise moves up and writes nothing;
so it cycles through 1 to 311 with period 311. -/
def Obligations.CursorAdvance : Prop :=
  ∀ (a : StateArray) (i : StateCursor),
    (i.val = 311 → advanceI a i = (writeWord a 0 (readWord a 311), ⟨1, by decide⟩)) ∧
    (∀ h : i.val + 1 ≤ 311, advanceI a i = (a, ⟨i.val + 1, by omega, h⟩)) ∧
    ∀ n : Nat, (forUp n (fun _ p => advanceI p.1 p.2) (a, i)).2.val = (i.val - 1 + n) % 311 + 1

/-- R60 (cursor facts): on return from the forward pass `i = (K mod 311) + 1` and `j` is `K mod len`, with `K = max(312, len)`. -/
def Obligations.ForwardPassReturnsItsCursor : Prop :=
  ∀ (key : List Word) (hk : 0 < key.length) (a : StateArray),
    (mixFwd key hk a).i.val = max 312 key.length % 311 + 1 ∧ (mixFwd key hk a).j.val = max 312 key.length % key.length

/-- R62: `FINALIZE` assigns the whole of word 0 and nothing else, so that word is 2^63 after every `SEED_ARRAY` that succeeds. -/
def Obligations.ArraySeedingForcesWordZero : Prop :=
  (∀ a : StateArray, readWord (finalize a) 0 = 0x8000000000000000 ∧
    ∀ (e : Nat) (he : 1 ≤ e ∧ e ≤ 311), readWord (finalize a) e = readWord a e) ∧
  ∀ (key : List Word) (s : State), key ≠ [] →
    ∃ t, exec (.seedArray key) s = .next t ∧ readWord t.state 0 = 0x8000000000000000

/-- R81: the empty seed sequence is rejected before anything is written, by the command and by its header on the port. -/
def Obligations.EmptySeedIsRejected : Prop :=
  (∀ s : State, exec (.seedArray []) s = .next { s with rspPort := s.rspPort ++ [⟨0x01, 0x0300000000000000⟩] }) ∧
  ∀ (s : State) (rest : List Word), s.rst = false → s.cmdPort = 0x0300000000000000 :: rest →
    step s = .next { s with cmdPort := rest, rspPort := s.rspPort ++ [⟨0x01, 0x0300000000000000⟩] }

/-- R60 to R64: `SEED_ARRAY` as one chain of words. With `c` the words of `INIT_SCALAR(19650218)` and `K = max(312, len)`, word `w k` is
what mixing iteration `k` writes: forward for `k` up to `K`, reverse for the 311 iterations after. Iteration `k` writes at index
`((k - 1) mod 311) + 1`, over what iteration `k - 311` wrote there (or over `c`, the first time round), and its predecessor is the
word written by iteration `k - 1`. The last 311 words of the chain are the final array above word 0, which is 2^63. -/
def Obligations.ArraySeedingIsOneMixingChain : Prop :=
  ∀ (key : List Word) (hk : key ≠ []) (s : State),
    ∃ (a : StateArray) (c w : Nat → Word),
      exec (.seedArray key) s = .next { s with state := a, index := 312, rspPort := s.rspPort ++ [⟨0x00, 0⟩] } ∧
      c 0 = 19650218 ∧
      (∀ i, 1 ≤ i → i ≤ 311 → c i = 6364136223846793005 * (c (i - 1) ^^^ (c (i - 1) >>> 62)) + BitVec.ofNat 64 i) ∧
      w 0 = c 0 ∧
      (∀ k, 1 ≤ k → k ≤ max 312 key.length →
        w k = ((if k ≤ 311 then c k else w (k - 311)) ^^^ ((w (k - 1) ^^^ (w (k - 1) >>> 62)) * 3935559000370003845))
          + key[(k - 1) % key.length]'(Nat.mod_lt _ (List.length_pos_iff.mpr hk)) + BitVec.ofNat 64 ((k - 1) % key.length)) ∧
      (∀ k, max 312 key.length < k → k ≤ max 312 key.length + 311 →
        w k = (w (k - 311) ^^^ ((w (k - 1) ^^^ (w (k - 1) >>> 62)) * 2862933555777941757))
          - BitVec.ofNat 64 ((k - 1) % 311 + 1)) ∧
      readWord a 0 = 0x8000000000000000 ∧
      ∀ k, max 312 key.length < k → k ≤ max 312 key.length + 311 →
        readWord a ((k - 1) % 311 + 1) (by omega) = w k

/-! ## The twist -/

/-- R66, by its formula and bit by bit. -/
def Obligations.CombineSplitsAtBit31 : Prop :=
  ∀ u l : Word,
    combine u l = (u &&& 0xFFFFFFFF80000000) ||| (l &&& 0x000000007FFFFFFF) ∧
    ∀ k, k < 64 → (combine u l).getLsbD k = if k < 31 then l.getLsbD k else u.getLsbD k

/-- R67, by its two cases and bit by bit. -/
def Obligations.TwistWordByLowBit : Prop :=
  ∀ y src : Word,
    (y.getLsbD 0 = false → twistWord y src = src ^^^ (y >>> 1)) ∧
    (y.getLsbD 0 = true → twistWord y src = src ^^^ (y >>> 1) ^^^ 0xB5026F5AA96619E9) ∧
    ∀ k, k < 64 → (twistWord y src).getLsbD k =
      ((src.getLsbD k ^^ (decide (k < 63) && y.getLsbD (k + 1))) ^^
        (y.getLsbD 0 && (0xB5026F5AA96619E9 : Word).getLsbD k))

/-- R68, R69, R70 with the table of R72: every word of the twisted array, from the words that are old and those that are new. -/
def Obligations.TwistWordsOldAndNew : Prop :=
  ∀ a : StateArray,
    (∀ (i : Nat) (hi : i ≤ 155), readWord (twistWords a) i =
      twistWord (combine (readWord a i) (readWord a (i + 1))) (readWord a (i + 156))) ∧
    (∀ (i : Nat) (hi : 156 ≤ i ∧ i ≤ 310), readWord (twistWords a) i =
      twistWord (combine (readWord a i) (readWord a (i + 1))) (readWord (twistWords a) (i - 156))) ∧
    readWord (twistWords a) 311 =
      twistWord (combine (readWord a 311) (readWord (twistWords a) 0)) (readWord (twistWords a) 155)

/-- R72 (corner cases): bits 30:0 of the old word 0 are used by no step of the twist. -/
def Obligations.TwistIgnoresLowBitsOfWordZero : Prop :=
  ∀ a b : StateArray, readWord a 0 >>> 31 = readWord b 0 >>> 31 →
    (∀ (e : Nat) (he : 1 ≤ e ∧ e ≤ 311), readWord a e = readWord b e) → twistWords a = twistWords b

/-- R72 (corner cases), vector T1 of 95_test_vectors.md section 2.2: the all-zero array, one fixed input, stays all zero. -/
def Obligations.TwistKeepsTheZeroArray : Prop :=
  ∀ a : StateArray, (∀ (e : Nat) (he : e < 312), readWord a e he = 0) →
    ∀ (e : Nat) (he : e < 312), readWord (twistWords a) e he = 0

/-! ## Tempering and `NEXT` -/

/-- R73. -/
def Obligations.TemperingFormula : Prop :=
  ∀ y0 : Word, ∃ y1 y2 y3 : Word,
    y1 = y0 ^^^ ((y0 >>> 29) &&& 0x5555555555555555) ∧
    y2 = y1 ^^^ ((y1 <<< 17) &&& 0x71D67FFFEDA60000) ∧
    y3 = y2 ^^^ ((y2 <<< 37) &&& 0xFFF7EEE000000000) ∧
    temper y0 = y3 ^^^ (y3 >>> 43)

/-- R75: `NEXT` in its three cases. The twist's words are those of R68 to R70 and the tempering is that of R73, each stated above. -/
def Obligations.NextInItsThreeCases : Prop :=
  ∀ s : State,
    encode .next = [0x0400000000000000] ∧
    (s.index = 313 →
      exec .next s = .next { s with rspPort := s.rspPort ++ [⟨0x02, 0x0400000000000000⟩] }) ∧
    (s.index ≠ 313 → 312 ≤ s.index.toNat →
      exec .next s = .next { s with
        state := twistWords s.state, index := 1, rspPort := s.rspPort ++ [⟨0x00, temper (readWord (twistWords s.state) 0)⟩] }) ∧
    ∀ h : s.index.toNat < 312,
      exec .next s = .next { s with
        index := s.index + 1, rspPort := s.rspPort ++ [⟨0x00, temper (readWord s.state s.index.toNat h)⟩] }

/-- R82: `NEXT` on an unseeded block, and how the condition clears. -/
def Obligations.UnseededUntilASeedingCommandSucceeds : Prop :=
  (∀ s : State, s.index = 313 →
    exec .next s = .next { s with rspPort := s.rspPort ++ [⟨0x02, 0x0400000000000000⟩] }) ∧
  ∀ s t : State, s.index = 313 → step s = .next t → t.index ≠ 313 →
    ∃ i rest, decode s.cmdPort = .command i rest ∧ i.seedsBlock ∧ t.index = 312 ∧ t.rspPort = s.rspPort ++ [⟨0x00, 0⟩]

/-- R77, the period boundary: `n` draws from an exhausted buffer run `ceil(n / 312)` twists, leave `index = ((n - 1) mod 312) + 1`, and
draw number `m + 1` answers the tempered word `m mod 312` of the array after `m / 312 + 1` twists. -/
def Obligations.PeriodBoundary : Prop :=
  ∀ (n : Nat) (s : State), s.index = 312 →
    execAll (List.replicate n .next) s = .next { s with
      state := twistWords^[(n + 311) / 312] s.state
      index := BitVec.ofNat 9 ((n + 311) % 312 + 1)
      rspPort := s.rspPort ++ (List.range n).map fun m =>
        ⟨0x00, temper (readWord (twistWords^[m / 312 + 1] s.state) (m % 312) (Nat.mod_lt _ (by decide)))⟩ }

/-! ## Rules of the whole machine -/

/-- R18: the ways `index` changes are exactly these. -/
def Obligations.WaysIndexChanges : Prop :=
  ∀ s t : State, step s = .next t → t.index ≠ s.index →
    (s.rst = true ∧ t.index = 313) ∨
    (s.rst = false ∧ ∃ i rest, decode s.cmdPort = .command i rest ∧
      ((i.seedsBlock ∧ t.index = 312) ∨
        (i = .next ∧ s.index ≠ 313 ∧ t.index = if 312 ≤ s.index.toNat then 1 else s.index + 1)))

/-- R13: nothing but reset, a seeding command and the twist of a `NEXT` writes the array. -/
def Obligations.WhatWritesTheArray : Prop :=
  ∀ s t : State, step s = .next t → t.state ≠ s.state →
    s.rst = true ∨
    ∃ i rest, decode s.cmdPort = .command i rest ∧
      (i.seedsBlock ∨ (i = .next ∧ s.index ≠ 313 ∧ 312 ≤ s.index.toNat ∧ t.state = twistWords s.state))

/-- R76, R92: only reset makes a seeded block unseeded. -/
def Obligations.OnlyResetUnseeds : Prop :=
  ∀ s t : State, s.index ≠ 313 → step s = .next t → t.index = 313 → s.rst = true

/-- R45: a stream of commands is executed in order, one step each, and the `n`-th response belongs to the `n`-th command. -/
def Obligations.RunExecutesCommandsInOrder : Prop :=
  ∀ (cs : List Instr) (s : State) (rest : List Word), s.rst = false → (∀ i ∈ cs, i.wellFormed = true) →
    s.cmdPort = cs.flatMap encode ++ rest →
    ∃ (t : State) (rs : List Response),
      core.run cs.length s = .next t ∧ execAll cs { s with cmdPort := rest } = .next t ∧
      t.cmdPort = rest ∧ t.rspPort = s.rspPort ++ rs ∧ rs.length = cs.length ∧ (rest = [] → t.complete)

/-- R54, R109: every finite sequence of words has an outcome. After at most as many steps as there are words, every whole command has
been executed and what is left at the port is no whole command. The last clause, that waiting is a step that changes nothing, is the
model's choice (assumption log 2). -/
def Obligations.EveryWordSequenceIsWorkedOff : Prop :=
  ∀ s : State, s.rst = false →
    ∃ n t, n ≤ s.cmdPort.length ∧ core.run n s = .next t ∧ decode t.cmdPort = .incomplete ∧ step t = .next t

/-- R78 (and R24): the responses of a block are a function of the words sent to it: the unspecified content of the array reaches none
of them, and one successful seeding command makes two blocks equal in every architectural part. That a waiting block's step answers a
next state is the model's choice (assumption log 2), and so is that a step taking a reset releases the reset input (assumption log 4). -/
def Obligations.UnspecifiedContentNeverReachesAnOutput : Prop :=
  ∀ (n : Nat) (s t : State), Alike s t →
    ∃ s' t' : State, core.run n s = .next s' ∧ core.run n t = .next t' ∧ Alike s' t'

/-- R16, R18, R44, R76: legal values stay legal. -/
def Obligations.StepKeepsLegalValues : Prop :=
  ∀ s t : State, LegalValues s → step s = .next t → LegalValues t

/-- R77 with R58: every step keeps a block on the sequence of its seed. -/
def Obligations.StepKeepsPlaceInSequence : Prop :=
  ∀ s t : State, OnSequence s → step s = .next t → OnSequence t

/-- The reset state meets both invariants. -/
def Obligations.ResetMeetsInvariants : Prop := LegalValues State.reset ∧ OnSequence State.reset
end

