-- ==== Sys2Proof/Laws/Decode.lean ====
section
/-! SUPPORT. The laws of the encoding: the fields of a header built by the encoder, the verdict on it, and framing. -/

namespace Sys2Proof

/-- The fields of a concatenation of three, and the concatenation of the fields of a word. -/
theorem append_high {a b c : Nat} (x : BitVec a) (y : BitVec b) (z : BitVec c) : (x ++ y ++ z).extractLsb' (b + c) a = x := by
  ext k hk
  have h1 : ¬ b + c + k < c := by omega
  have h2 : ¬ b + c + k - c < b := by omega
  have h3 : b + c + k - c - b = k := by omega
  simp [BitVec.getLsbD_append, h1, h2, h3, hk]

theorem append_middle {a b c : Nat} (x : BitVec a) (y : BitVec b) (z : BitVec c) : (x ++ y ++ z).extractLsb' c b = y := by
  ext k hk
  have h1 : ¬ c + k < c := by omega
  have h2 : c + k - c = k := by omega
  simp [BitVec.getLsbD_append, h1, h2, hk]

theorem append_low {a b c : Nat} (x : BitVec a) (y : BitVec b) (z : BitVec c) : (x ++ y ++ z).extractLsb' 0 c = z := by
  ext k hk
  simp [BitVec.getLsbD_append, hk]

theorem append_of_extracts {a b c : Nat} (v : BitVec (a + b + c)) :
    v.extractLsb' (b + c) a ++ v.extractLsb' c b ++ v.extractLsb' 0 c = v := by
  ext k hk
  simp only [BitVec.getElem_append, BitVec.getElem_extractLsb']
  by_cases h1 : k < c
  · simp [h1, BitVec.getLsbD_eq_getElem hk]
  · by_cases h2 : k - c < b
    · have h3 : c + (k - c) = k := by omega
      simp [h1, h2, h3, BitVec.getLsbD_eq_getElem, hk]
    · have h3 : b + c + (k - c - b) = k := by omega
      simp [h1, h2, h3, BitVec.getLsbD_eq_getElem, hk]

@[simp] theorem opcField_mkHeader (opc : BitVec 8) (len : BitVec 32) : opcField (mkHeader opc len) = opc :=
  append_high opc 0#24 len

@[simp] theorem rsvField_mkHeader (opc : BitVec 8) (len : BitVec 32) : rsvField (mkHeader opc len) = 0 :=
  append_middle opc 0#24 len

@[simp] theorem lenField_mkHeader (opc : BitVec 8) (len : BitVec 32) : lenField (mkHeader opc len) = len :=
  append_low opc 0#24 len

/-- A header is its three fields. -/
theorem header_eq_fields (h : Word) : opcField h ++ rsvField h ++ lenField h = h :=
  append_of_extracts (a := 8) (b := 24) (c := 32) h

/-- A header whose reserved bits are 0 is what the encoder builds from its two other fields. -/
theorem header_eq_mkHeader {h : Word} (hr : rsvField h = 0) : h = mkHeader (opcField h) (lenField h) := by
  have h1 := header_eq_fields h
  rw [hr] at h1
  exact h1.symm

/-- The fields of a header as numbers (R42). -/
theorem opcField_toNat (h : Word) : (opcField h).toNat = h.toNat / 2 ^ 56 := by
  have := h.isLt
  simp [opcField, BitVec.extractLsb'_toNat, Nat.shiftRight_eq_div_pow]
  omega

theorem rsvField_toNat (h : Word) : (rsvField h).toNat = h.toNat / 2 ^ 32 % 2 ^ 24 := by
  simp [rsvField, BitVec.extractLsb'_toNat, Nat.shiftRight_eq_div_pow]

theorem lenField_toNat (h : Word) : (lenField h).toNat = h.toNat % 2 ^ 32 := by
  simp [lenField, BitVec.extractLsb'_toNat]

/-- The comparisons of the header decoder, as comparisons of numbers. -/
theorem opcField_eq_iff (h : Word) (n : BitVec 8) : opcField h = n ↔ h.toNat / 2 ^ 56 = n.toNat := by
  rw [← opcField_toNat]
  exact BitVec.toNat_inj.symm

theorem rsvField_eq_iff (h : Word) (n : BitVec 24) : rsvField h = n ↔ h.toNat / 2 ^ 32 % 2 ^ 24 = n.toNat := by
  rw [← rsvField_toNat]
  exact BitVec.toNat_inj.symm

theorem lenField_eq_iff (h : Word) (n : BitVec 32) : lenField h = n ↔ h.toNat % 2 ^ 32 = n.toNat := by
  rw [← lenField_toNat]
  exact BitVec.toNat_inj.symm

theorem append_zero_toNat {a b c : Nat} (x : BitVec a) (z : BitVec c) :
    (x ++ 0#b ++ z).toNat = x.toNat * 2 ^ (b + c) + z.toNat := by
  rw [BitVec.toNat_append, BitVec.toNat_append, ← Nat.shiftLeft_add_eq_or_of_lt z.isLt]
  simp [Nat.shiftLeft_eq, Nat.pow_add, Nat.mul_assoc]

/-- A header built by the encoder as a number (R42). -/
theorem mkHeader_toNat (opc : BitVec 8) (len : BitVec 32) : (mkHeader opc len).toNat = opc.toNat * 2 ^ 56 + len.toNat :=
  append_zero_toNat (b := 24) opc len

/-- A header is the encoder's exactly when its fields say so. -/
theorem eq_mkHeader_iff (h : Word) (opc : BitVec 8) (len : BitVec 32) :
    h = mkHeader opc len ↔ opcField h = opc ∧ rsvField h = 0 ∧ lenField h = len := by
  constructor
  · rintro rfl
    simp
  · rintro ⟨rfl, hr, rfl⟩
    exact header_eq_mkHeader hr

@[simp] theorem length_payloadOf_seedArray (key : List Word) : (payloadOf (.seedArray key)).length = key.length := rfl

/-- Framing takes the header and exactly `LEN` payload words. -/
theorem frame_of_length (h : Word) (payload rest : List Word) (hl : payload.length = (lenField h).toNat) :
    frame (h :: (payload ++ rest)) = some ⟨h, payload, rest⟩ := by
  have hn : ¬ (payload ++ rest).length < (lenField h).toNat := by simp [hl]
  simp [frame, ← hl]

/-- Framing waits exactly while the header or a payload word is missing. -/
theorem frame_eq_none_iff (ws : List Word) :
    frame ws = none ↔ ws = [] ∨ ∃ h t, ws = h :: t ∧ t.length < (lenField h).toNat := by
  cases ws with
  | nil => simp [frame]
  | cons h t => by_cases hlt : t.length < (lenField h).toNat <;> simp [frame, hlt]

/-- What a frame is made of. -/
theorem frame_eq_some {ws : List Word} {f : Frame} (hf : frame ws = some f) :
    ws = f.header :: (f.payload ++ f.rest) ∧ f.payload.length = (lenField f.header).toNat := by
  cases ws with
  | nil => simp [frame] at hf
  | cons h t =>
    by_cases hlt : t.length < (lenField h).toNat
    · simp [frame, hlt] at hf
    · simp only [frame, hlt, if_false, Option.some.injEq] at hf
      subst hf
      simp only [List.take_append_drop, List.length_take, true_and]
      omega

/-- The frame of a whole command. -/
theorem frame_of_le {h : Word} {ws : List Word} (hl : (lenField h).toNat ≤ ws.length) :
    frame (h :: ws) = some ⟨h, ws.take (lenField h).toNat, ws.drop (lenField h).toNat⟩ := by
  simp [frame, Nat.not_lt.mpr hl]

/-- Words behind a whole command do not change how it is framed (R41). -/
theorem frame_append {ws : List Word} {f : Frame} (hf : frame ws = some f) (more : List Word) :
    frame (ws ++ more) = some ⟨f.header, f.payload, f.rest ++ more⟩ := by
  obtain ⟨h1, h2⟩ := frame_eq_some hf
  rw [h1]
  simpa using frame_of_length f.header f.payload (f.rest ++ more) h2

/-- The rest of a decoded frame is the frame's. -/
theorem rest_of_decodeFrame {f : Frame} :
    (∀ {why h rest}, decodeFrame f = .illegal why h rest → h = f.header ∧ rest = f.rest) ∧
    ∀ {i rest}, decodeFrame f = .command i rest → rest = f.rest := by
  unfold decodeFrame
  constructor <;> intros <;> split at * <;> simp_all

/-- A decoded frame is never incomplete. -/
theorem decodeFrame_ne_incomplete (f : Frame) : decodeFrame f ≠ .incomplete := by
  unfold decodeFrame
  split <;> simp

end Sys2Proof
end

