-- ==== Sys2Proof/Laws/State.lean ====
section
/-! SUPPORT. One lemma per field of the state and per shared update: later proofs cite these and do not unfold an update. -/

namespace Sys2Proof.Machine

@[simp] theorem setWords_state (a : StateArray) (s : State) : (setWords a s).state = a := rfl
@[simp] theorem setWords_index (a : StateArray) (s : State) : (setWords a s).index = s.index := rfl
@[simp] theorem setWords_cmdPort (a : StateArray) (s : State) : (setWords a s).cmdPort = s.cmdPort := rfl
@[simp] theorem setWords_rspPort (a : StateArray) (s : State) : (setWords a s).rspPort = s.rspPort := rfl
@[simp] theorem setWords_rst (a : StateArray) (s : State) : (setWords a s).rst = s.rst := rfl
@[simp] theorem setWords_resetCount (a : StateArray) (s : State) : (setWords a s).resetCount = s.resetCount := rfl

@[simp] theorem setIndex_state (v : BitVec 9) (s : State) : (setIndex v s).state = s.state := rfl
@[simp] theorem setIndex_index (v : BitVec 9) (s : State) : (setIndex v s).index = v := rfl
@[simp] theorem setIndex_cmdPort (v : BitVec 9) (s : State) : (setIndex v s).cmdPort = s.cmdPort := rfl
@[simp] theorem setIndex_rspPort (v : BitVec 9) (s : State) : (setIndex v s).rspPort = s.rspPort := rfl
@[simp] theorem setIndex_rst (v : BitVec 9) (s : State) : (setIndex v s).rst = s.rst := rfl
@[simp] theorem setIndex_resetCount (v : BitVec 9) (s : State) : (setIndex v s).resetCount = s.resetCount := rfl

@[simp] theorem setCmdPort_state (ws : List Word) (s : State) : (setCmdPort ws s).state = s.state := rfl
@[simp] theorem setCmdPort_index (ws : List Word) (s : State) : (setCmdPort ws s).index = s.index := rfl
@[simp] theorem setCmdPort_cmdPort (ws : List Word) (s : State) : (setCmdPort ws s).cmdPort = ws := rfl
@[simp] theorem setCmdPort_rspPort (ws : List Word) (s : State) : (setCmdPort ws s).rspPort = s.rspPort := rfl
@[simp] theorem setCmdPort_rst (ws : List Word) (s : State) : (setCmdPort ws s).rst = s.rst := rfl
@[simp] theorem setCmdPort_resetCount (ws : List Word) (s : State) : (setCmdPort ws s).resetCount = s.resetCount := rfl

@[simp] theorem sendResponse_state (r : Response) (s : State) : (sendResponse r s).state = s.state := rfl
@[simp] theorem sendResponse_index (r : Response) (s : State) : (sendResponse r s).index = s.index := rfl
@[simp] theorem sendResponse_cmdPort (r : Response) (s : State) : (sendResponse r s).cmdPort = s.cmdPort := rfl
@[simp] theorem sendResponse_rspPort (r : Response) (s : State) : (sendResponse r s).rspPort = s.rspPort ++ [r] := rfl
@[simp] theorem sendResponse_rst (r : Response) (s : State) : (sendResponse r s).rst = s.rst := rfl
@[simp] theorem sendResponse_resetCount (r : Response) (s : State) : (sendResponse r s).resetCount = s.resetCount := rfl

@[simp] theorem respondOk_state (v : Word) (s : State) : (respondOk v s).state = s.state := rfl
@[simp] theorem respondOk_index (v : Word) (s : State) : (respondOk v s).index = s.index := rfl
@[simp] theorem respondOk_cmdPort (v : Word) (s : State) : (respondOk v s).cmdPort = s.cmdPort := rfl
@[simp] theorem respondOk_rspPort (v : Word) (s : State) : (respondOk v s).rspPort = s.rspPort ++ [⟨0x00, v⟩] := rfl
@[simp] theorem respondOk_rst (v : Word) (s : State) : (respondOk v s).rst = s.rst := rfl
@[simp] theorem respondOk_resetCount (v : Word) (s : State) : (respondOk v s).resetCount = s.resetCount := rfl

@[simp] theorem raiseError_state (e : Status) (h : Word) (s : State) : (raiseError e h s).state = s.state := rfl
@[simp] theorem raiseError_index (e : Status) (h : Word) (s : State) : (raiseError e h s).index = s.index := rfl
@[simp] theorem raiseError_cmdPort (e : Status) (h : Word) (s : State) : (raiseError e h s).cmdPort = s.cmdPort := rfl
@[simp] theorem raiseError_rspPort (e : Status) (h : Word) (s : State) : (raiseError e h s).rspPort = s.rspPort ++ [⟨e.code, h⟩] := rfl
@[simp] theorem raiseError_rst (e : Status) (h : Word) (s : State) : (raiseError e h s).rst = s.rst := rfl
@[simp] theorem raiseError_resetCount (e : Status) (h : Word) (s : State) : (raiseError e h s).resetCount = s.resetCount := rfl

@[simp] theorem execIllegal_state (h : Word) (s : State) : (execIllegal h s).state = s.state := rfl
@[simp] theorem execIllegal_index (h : Word) (s : State) : (execIllegal h s).index = s.index := rfl
@[simp] theorem execIllegal_cmdPort (h : Word) (s : State) : (execIllegal h s).cmdPort = s.cmdPort := rfl
@[simp] theorem execIllegal_rspPort (h : Word) (s : State) : (execIllegal h s).rspPort = s.rspPort ++ [⟨0x03, h⟩] := rfl
@[simp] theorem execIllegal_rst (h : Word) (s : State) : (execIllegal h s).rst = s.rst := rfl
@[simp] theorem execIllegal_resetCount (h : Word) (s : State) : (execIllegal h s).resetCount = s.resetCount := rfl

@[simp] theorem hostSend_state (ws : List Word) (s : State) : (hostSend ws s).state = s.state := rfl
@[simp] theorem hostSend_index (ws : List Word) (s : State) : (hostSend ws s).index = s.index := rfl
@[simp] theorem hostSend_cmdPort (ws : List Word) (s : State) : (hostSend ws s).cmdPort = s.cmdPort ++ ws := rfl
@[simp] theorem hostSend_rspPort (ws : List Word) (s : State) : (hostSend ws s).rspPort = s.rspPort := rfl
@[simp] theorem hostSend_rst (ws : List Word) (s : State) : (hostSend ws s).rst = s.rst := rfl
@[simp] theorem hostSend_resetCount (ws : List Word) (s : State) : (hostSend ws s).resetCount = s.resetCount := rfl

@[simp] theorem hostReset_state (s : State) : (hostReset s).state = s.state := rfl
@[simp] theorem hostReset_index (s : State) : (hostReset s).index = s.index := rfl
@[simp] theorem hostReset_cmdPort (s : State) : (hostReset s).cmdPort = s.cmdPort := rfl
@[simp] theorem hostReset_rspPort (s : State) : (hostReset s).rspPort = s.rspPort := rfl
@[simp] theorem hostReset_rst (s : State) : (hostReset s).rst = true := rfl
@[simp] theorem hostReset_resetCount (s : State) : (hostReset s).resetCount = s.resetCount := rfl

@[simp] theorem takeReset_state (s : State) : (takeReset s).state = unspecifiedArray (s.resetCount + 1) := rfl
@[simp] theorem takeReset_index (s : State) : (takeReset s).index = 313 := rfl
@[simp] theorem takeReset_cmdPort (s : State) : (takeReset s).cmdPort = [] := rfl
@[simp] theorem takeReset_rspPort (s : State) : (takeReset s).rspPort = [] := rfl
@[simp] theorem takeReset_rst (s : State) : (takeReset s).rst = false := rfl
@[simp] theorem takeReset_resetCount (s : State) : (takeReset s).resetCount = s.resetCount + 1 := rfl

@[simp] theorem setIndex_setIndex (v w : BitVec 9) (s : State) : setIndex v (setIndex w s) = setIndex v s := rfl

@[simp] theorem setWords_setIndex (a : StateArray) (v : BitVec 9) (s : State) :
    setWords a (setIndex v s) = setIndex v (setWords a s) := rfl

@[simp] theorem setWords_setWords (a b : StateArray) (s : State) : setWords a (setWords b s) = setWords a s := rfl

/-- Two states are equal when their six fields are. -/
theorem State.eq_of_fields {s t : State} (h1 : s.state = t.state) (h2 : s.index = t.index) (h3 : s.cmdPort = t.cmdPort)
    (h4 : s.rspPort = t.rspPort) (h5 : s.rst = t.rst) (h6 : s.resetCount = t.resetCount) : s = t := by
  cases s
  cases t
  simp_all

end Sys2Proof.Machine
end

