-- ==== Sys2Proof/Laws/Words.lean ====
section
/-! SUPPORT. The laws of the loop form and of the `state` array: what an induction over a loop needs, read after write, and equality of
arrays word by word. -/

namespace Sys2Proof.Machine

@[simp] theorem forUp_zero {α : Type} (body : Fin 0 → α → α) (x : α) : forUp 0 body x = x := rfl

theorem forUp_succ {α : Type} (n : Nat) (body : Fin (n + 1) → α → α) (x : α) :
    forUp (n + 1) body x = body (Fin.last n) (forUp n (fun k => body k.castSucc) x) := rfl

/-- The loop rule: what holds before the loop and is carried from iteration `k` to `k + 1` by the body holds after `n` iterations. -/
theorem forUp_invariant {α : Type} (P : Nat → α → Prop) :
    ∀ (n : Nat) (body : Fin n → α → α) (x : α), P 0 x → (∀ (k : Fin n) (y : α), P k.val y → P (k.val + 1) (body k y)) →
      P n (forUp n body x)
  | 0, _, _, h0, _ => h0
  | n + 1, body, x, h0, hs =>
    hs (Fin.last n) _ (forUp_invariant P n (fun k => body k.castSucc) x h0 (fun k y hy => hs k.castSucc y hy))

/-- The loop rule for two loops run side by side. -/
theorem forUp_relation {α β : Type} (P : Nat → α → β → Prop) :
    ∀ (n : Nat) (f : Fin n → α → α) (g : Fin n → β → β) (x : α) (y : β), P 0 x y →
      (∀ (k : Fin n) (a : α) (b : β), P k.val a b → P (k.val + 1) (f k a) (g k b)) → P n (forUp n f x) (forUp n g y)
  | 0, _, _, _, _, h0, _ => h0
  | n + 1, f, g, x, y, h0, hs =>
    hs (Fin.last n) _ _
      (forUp_relation P n (fun k => f k.castSucc) (fun k => g k.castSucc) x y h0 (fun k a b h => hs k.castSucc a b h))

@[simp] theorem readWord_writeWord_self (a : StateArray) (e : Nat) (v : Word) (h : e < 312) :
    readWord (writeWord a e v h) e h = v := by
  simp [readWord, writeWord]

@[simp] theorem readWord_writeWord_of_ne (a : StateArray) (e f : Nat) (v : Word) (h : e < 312) (hf : f < 312) (hne : f ≠ e) :
    readWord (writeWord a e v h) f hf = readWord a f hf := by
  simp [readWord, writeWord, Vector.getElem_set_ne, hne.symm]

theorem readWord_writeWord (a : StateArray) (e f : Nat) (v : Word) (h : e < 312) (hf : f < 312) :
    readWord (writeWord a e v h) f hf = if f = e then v else readWord a f hf := by
  split
  next heq => subst heq; exact readWord_writeWord_self a f v h
  next hne => exact readWord_writeWord_of_ne a e f v h hf hne

/-- Arrays that hold the same word at every index are equal. -/
theorem eq_of_readWord_eq {a b : StateArray} (h : ∀ (e : Nat) (he : e < 312), readWord a e he = readWord b e he) : a = b :=
  Vector.ext h

end Sys2Proof.Machine
end

