-- ==== Sys2Proof/Laws/Seed.lean ====
section
/-! SUPPORT. What the seeding procedures do, said once: the words `INIT_SCALAR` leaves, one iteration of each mixing pass, and that no
seeding procedure depends on what the array held before. -/

namespace Sys2Proof.Machine

/-- What `n` iterations of the loop of `INIT_SCALAR` leave: the first `n + 1` words follow the recurrence of R55. -/
theorem initScalarLoop_spec (seed : Word) (a : StateArray) (n : Nat) (hn : n ≤ 311) :
    ∀ b, b = forUp n (fun k => initScalarStep (k.val + 1) (by omega)) (writeWord a 0 seed) →
      readWord b 0 = seed ∧ ∀ (i : Nat) (hi : 1 ≤ i ∧ i ≤ n),
        readWord b i = multF * fold62 (readWord b (i - 1)) + zext64 i := by
  rintro b rfl
  refine forUp_invariant
    (fun m b => readWord b 0 = seed ∧ ∀ (i : Nat) (hi : 1 ≤ i ∧ i ≤ m ∧ m ≤ 311),
      readWord b i = multF * fold62 (readWord b (i - 1)) + zext64 i) n _ _ ⟨by simp, fun i hi => by omega⟩ ?_ |>.imp_right
    fun h i hi => h i ⟨hi.1, hi.2, hn⟩
  rintro k b ⟨h0, hb⟩
  refine ⟨by simp [initScalarStep, h0], fun i hi => ?_⟩
  by_cases hik : i = k.val + 1
  · subst hik
    simp [initScalarStep]
  · rw [initScalarStep, readWord_writeWord_of_ne _ _ _ _ _ _ hik, readWord_writeWord_of_ne _ _ _ _ _ _ (by omega)]
    exact hb i (by omega)

/-- `INIT_SCALAR` leaves the seed in word 0 and the recurrence of R55 in every other word. -/
theorem initScalarWords_spec (seed : Word) (a : StateArray) :
    readWord (initScalarWords seed a) 0 = seed ∧ ∀ (i : Nat) (hi : 1 ≤ i ∧ i ≤ 311),
      readWord (initScalarWords seed a) i = multF * fold62 (readWord (initScalarWords seed a) (i - 1)) + zext64 i :=
  initScalarLoop_spec seed a 311 (Nat.le_refl _) _ rfl

/-- Two arrays that start alike and follow one recurrence of distance one are equal. -/
theorem eq_of_recurrence (f : Nat → Word → Word) {a b : StateArray} (h0 : readWord a 0 = readWord b 0)
    (ha : ∀ (i : Nat) (_ : 1 ≤ i ∧ i ≤ 311), readWord a i = f i (readWord a (i - 1)))
    (hb : ∀ (i : Nat) (_ : 1 ≤ i ∧ i ≤ 311), readWord b i = f i (readWord b (i - 1))) : a = b := by
  refine eq_of_readWord_eq fun e => ?_
  induction e with
  | zero => exact fun _ => h0
  | succ n ih =>
    intro he
    rw [ha (n + 1) (by omega), hb (n + 1) (by omega)]
    exact congrArg (f (n + 1)) (ih (by omega))

/-- `INIT_SCALAR` does not depend on what the array held before (R55, R58). -/
theorem initScalarWords_forgets (seed : Word) (a b : StateArray) : initScalarWords seed a = initScalarWords seed b :=
  eq_of_recurrence (fun i p => multF * fold62 p + zext64 i)
    ((initScalarWords_spec seed a).1.trans (initScalarWords_spec seed b).1.symm) (initScalarWords_spec seed a).2
    (initScalarWords_spec seed b).2

/-- Array seeding does not depend on what the array held before (R58, R63). -/
theorem seedArrayWords_forgets (key : List Word) (hk : 0 < key.length) (a b : StateArray) :
    seedArrayWords key hk a = seedArrayWords key hk b := by
  simp only [seedArrayWords, initScalarWords_forgets baseSeed a b]

/-- `ADVANCE_I` inside the array: the cursor moves up and nothing is written (R59). -/
theorem advanceI_of_lt (a : StateArray) (i : StateCursor) (h : i.val < 311) :
    advanceI a i = (a, ⟨i.val + 1, by omega⟩) := by
  have hne : ¬ i.val + 1 = 312 := by omega
  simp [advanceI, hne]

/-- `ADVANCE_I` at the end of the array: the last word is copied over word 0 and the cursor starts again (R59). -/
theorem advanceI_of_eq (a : StateArray) (i : StateCursor) (h : i.val = 311) :
    advanceI a i = (writeWord a 0 (readWord a 311), firstCursor) := by
  have he : i.val + 1 = 312 := by omega
  simp [advanceI, he]

/-- Where `ADVANCE_I` leaves the cursor. -/
theorem advanceI_cursor (a : StateArray) (i : StateCursor) : (advanceI a i).2.val = i.val % 311 + 1 := by
  have hi := i.property
  by_cases h : i.val = 311
  · simp [advanceI_of_eq a i h, firstCursor, h]
  · rw [advanceI_of_lt a i (by omega)]
    show i.val + 1 = i.val % 311 + 1
    omega

/-- What `ADVANCE_I` leaves in the words above 0. -/
theorem readWord_advanceI (a : StateArray) (i : StateCursor) (e : Nat) (he : 1 ≤ e ∧ e ≤ 311) :
    readWord (advanceI a i).1 e = readWord a e := by
  have hi := i.property
  by_cases h : i.val = 311
  · rw [advanceI_of_eq a i h]
    exact readWord_writeWord_of_ne _ _ _ _ (by omega) _ (by omega)
  · rw [advanceI_of_lt a i (by omega)]

/-- After `ADVANCE_I` the word below the new cursor is the word at the old one (R59, R108). -/
theorem readWord_advanceI_below (a : StateArray) (i : StateCursor) :
    readWord (advanceI a i).1 ((advanceI a i).2.val - 1) (by have := (advanceI a i).2.property; omega)
      = readWord a i.val (by have := i.property; omega) := by
  have hi := i.property
  by_cases h : i.val = 311
  · simp [advanceI_of_eq a i h, firstCursor, h]
  · simp [advanceI_of_lt a i (by omega)]

/-- Where `j` goes (R60). -/
theorem advanceJ_val {len : Nat} (j : Fin len) : (advanceJ j).val = (j.val + 1) % len := by
  by_cases h : j.val + 1 = len
  · simp [advanceJ, h]
  · have hlt : j.val + 1 < len := by omega
    simp [advanceJ, h, Nat.mod_eq_of_lt hlt]

/-- `FINALIZE` assigns word 0 and nothing else (R62). -/
theorem readWord_finalize (a : StateArray) (e : Nat) (he : e < 312) :
    readWord (finalize a) e he = if e = 0 then topWord else readWord a e he := by
  simp only [finalize, readWord_writeWord]

end Sys2Proof.Machine
end

