-- ==== Sys2Proof/Laws/Mix.lean ====
section
/-! SUPPORT. The one fact about both mixing passes: any process that writes a word at the cursor and advances it leaves, at each index,
the word written there last (R59, R60, R61, R108). -/

namespace Sys2Proof.Machine

/-- A process of `N` iterations: iteration `n` writes the word `v n` at the cursor and runs `ADVANCE_I`. -/
def MixesUpTo (N : Nat) (a : Nat → StateArray) (i : Nat → StateCursor) (v : Nat → Word) : Prop :=
  ∀ n, n < N → advanceI (writeWord (a n) (i n).val (v n) (by have := (i n).property; omega)) (i n) = (a (n + 1), i (n + 1))

/-- Where the cursor of such a process stands, and what the array holds after `n` iterations: below the cursor the word written last,
at each index visited in the last 311 iterations the word written there, and elsewhere above 0 the word of the start. -/
theorem MixesUpTo.words {N : Nat} {a : Nat → StateArray} {i : Nat → StateCursor} {v : Nat → Word} (h : MixesUpTo N a i v)
    (h0 : (i 0).val = 1) :
    ∀ n, n ≤ N → (i n).val = n % 311 + 1 ∧
      (∀ m, n = m + 1 → readWord (a n) ((i n).val - 1) (by have := (i n).property; omega) = v m) ∧
      (∀ m, 1 ≤ m → m ≤ n → n < m + 311 → readWord (a n) ((m - 1) % 311 + 1) (by omega) = v (m - 1)) ∧
      ∀ (e : Nat) (he : n < e ∧ e ≤ 311), readWord (a n) e = readWord (a 0) e := by
  intro n
  induction n with
  | zero => exact fun _ => ⟨h0, fun m hm => by omega, fun m h1 h2 => by omega, fun e he => rfl⟩
  | succ n ih =>
    intro hn
    obtain ⟨hi, -, hB, hC⟩ := ih (by omega)
    have hp := (i n).property
    have hs := h n (by omega)
    have ha : a (n + 1) = (advanceI (writeWord (a n) (i n).val (v n)) (i n)).1 := by rw [hs]
    have hc : i (n + 1) = (advanceI (writeWord (a n) (i n).val (v n)) (i n)).2 := by rw [hs]
    have hbelow := readWord_advanceI_below (writeWord (a n) (i n).val (v n)) (i n)
    rw [readWord_writeWord_self] at hbelow
    have habove : ∀ (e : Nat) (he : 1 ≤ e ∧ e ≤ 311), readWord (a (n + 1)) e =
        if e = (i n).val then v n else readWord (a n) e := by
      intro e he
      rw [ha, readWord_advanceI _ _ e he, readWord_writeWord]
    refine ⟨?_, ?_, fun m h1 h2 h3 => ?_, fun e he => ?_⟩
    · rw [hc, advanceI_cursor, hi]
      omega
    · intro m hm
      obtain rfl : n = m := by omega
      simpa only [ha, hc] using hbelow
    · rw [habove _ (by omega)]
      split
      next heq =>
        obtain rfl : m = n + 1 := by omega
        rfl
      next hne => exact hB m h1 (by omega) (by omega)
    · rw [habove e (by omega), if_neg (by omega)]
      exact hC e (by omega)

end Sys2Proof.Machine
end

