-- ==== Sys2Proof/Laws/PerInstr.lean ====
section
/-! SUPPORT. Facts about every command as syntax, one lemma per constructor of `Instr`. Family `Framing`: the words of a well-formed
command are cut from the stream as one command, whatever follows (R41). -/

namespace Sys2Proof.Laws.Framing

/-- Framing the words of `i` gives its header, its payload and the words after it. -/
def Statement (i : Instr) : Prop :=
  i.wellFormed = true → ∀ rest : List Word, frame (encode i ++ rest) = some ⟨headerOf i, payloadOf i, rest⟩

theorem seedDefault : Statement .seedDefault :=
  fun _ rest => frame_of_length _ [] rest (by simp [headerOf])

theorem seedScalar (seed : Word) : Statement (.seedScalar seed) :=
  fun _ rest => frame_of_length _ [seed] rest (by simp [headerOf])

theorem seedArray (key : List Word) : Statement (.seedArray key) := by
  intro hwf rest
  have hk : key.length < 2 ^ 32 := by simpa [Instr.wellFormed] using hwf
  exact frame_of_length _ key rest (by simp only [headerOf, lenField_mkHeader, BitVec.toNat_ofNat]; omega)

theorem next : Statement .next :=
  fun _ rest => frame_of_length _ [] rest (by simp [headerOf])

end Sys2Proof.Laws.Framing
end

