-- ==== Sys2Proof/Laws/Twist.lean ====
section
/-! SUPPORT. What the twist does, part by part: each part writes the words of its own range, from words that hold their old value or
a new one as R72 says, and leaves the others alone. -/

namespace Sys2Proof.Machine

/-- The first part (R68): words 0 to 155 from old words only, the others unchanged. -/
theorem twistLow_spec (a : StateArray) :
    (∀ (i : Nat) (hi : i ≤ 155), readWord (twistLow a) i =
      twistWord (combine (readWord a i) (readWord a (i + 1))) (readWord a (i + 156))) ∧
    ∀ (e : Nat) (he : 156 ≤ e ∧ e < 312), readWord (twistLow a) e = readWord a e := by
  have key := forUp_invariant
    (fun m b => (∀ (i : Nat) (hi : i < m ∧ m ≤ 156), readWord b i =
        twistWord (combine (readWord a i) (readWord a (i + 1))) (readWord a (i + 156))) ∧
      ∀ (e : Nat) (he : m ≤ e ∧ e < 312), readWord b e = readWord a e)
    156 (fun k => twistLowStep k.val (by omega)) a ⟨fun i hi => by omega, fun e he => rfl⟩
    (by
      rintro k b ⟨h1, h2⟩
      have hk := k.isLt
      refine ⟨fun i hi => ?_, fun e he => ?_⟩
      · by_cases hik : i = k.val
        · subst hik
          rw [twistLowStep, readWord_writeWord_self, h2 _ (by omega), h2 _ (by omega), h2 _ (by omega)]
        · rw [twistLowStep, readWord_writeWord_of_ne _ _ _ _ _ _ hik]
          exact h1 i (by omega)
      · rw [twistLowStep, readWord_writeWord_of_ne _ _ _ _ _ _ (by omega)]
        exact h2 e (by omega))
  exact ⟨fun i hi => key.1 i (by omega), fun e he => key.2 e (by omega)⟩

/-- The second part (R69): words 156 to 310, upper and lower bits from old words, the source word a new one. -/
theorem twistHigh_spec (a : StateArray) :
    (∀ (i : Nat) (hi : 156 ≤ i ∧ i ≤ 310), readWord (twistHigh a) i =
      twistWord (combine (readWord a i) (readWord a (i + 1))) (readWord (twistHigh a) (i - 156))) ∧
    ∀ (e : Nat) (_ : e < 312) (_ : e < 156 ∨ e = 311), readWord (twistHigh a) e = readWord a e := by
  have key := forUp_invariant
    (fun m b => (∀ (i : Nat) (hi : 156 ≤ i ∧ i < 156 + m ∧ m ≤ 155), readWord b i =
        twistWord (combine (readWord a i) (readWord a (i + 1))) (readWord b (i - 156))) ∧
      ∀ (e : Nat) (_ : e < 312) (_ : e < 156 ∨ 156 + m ≤ e), readWord b e = readWord a e)
    155 (fun k => twistHighStep (156 + k.val) (by omega)) a ⟨fun i hi => by omega, fun e he _ => rfl⟩
    (by
      rintro k b ⟨h1, h2⟩
      have hk := k.isLt
      refine ⟨fun i hi => ?_, fun e he hd => ?_⟩
      · by_cases hik : i = 156 + k.val
        · subst hik
          rw [twistHighStep, readWord_writeWord_self, readWord_writeWord_of_ne _ _ _ _ _ _ (by omega), h2 (156 + k.val) (by omega) (by omega),
            h2 (156 + k.val + 1) (by omega) (by omega)]
        · rw [twistHighStep, readWord_writeWord_of_ne _ _ _ _ _ _ hik, readWord_writeWord_of_ne _ _ _ _ _ _ (by omega)]
          exact h1 i (by omega)
      · rw [twistHighStep, readWord_writeWord_of_ne _ _ _ _ _ _ (by omega)]
        exact h2 e he (by omega))
  exact ⟨fun i hi => key.1 i (by omega), fun e he hd => key.2 e he (by omega)⟩

/-- The last step (R70) writes word 311 and nothing else. -/
theorem twistLastStep_spec (a : StateArray) :
    readWord (twistLastStep a) 311 = twistWord (combine (readWord a 311) (readWord a 0)) (readWord a 155) ∧
    ∀ (e : Nat) (he : e < 311), readWord (twistLastStep a) e = readWord a e :=
  ⟨readWord_writeWord_self _ _ _ _, fun _ _ => readWord_writeWord_of_ne _ _ _ _ _ _ (by omega)⟩

/-- `NEXT` on an unseeded block (R82). -/
theorem execNext_of_unseeded (s : State) (h : s.index = 313) :
    execNext s = .next (raiseError .notSeeded (headerOf .next) s) := by
  have hu : unseeded s.index := h
  simp [execNext, hu]

/-- `NEXT` on an exhausted block (R75). -/
theorem execNext_of_exhausted (s : State) (hs : s.index ≠ 313) (h : 312 ≤ s.index) :
    execNext s = .next (respondOk (temper (readWord (twistWords s.state) 0)) (setIndex 1 (setWords (twistWords s.state) s))) := by
  have hu : ¬ unseeded s.index := hs
  have he : exhausted s.index := h
  simp [execNext, hu, he, drawWord, twist]

/-- `NEXT` on a block with unread words (R75). -/
theorem execNext_of_unread (s : State) (h : s.index.toNat < 312) :
    execNext s = .next (respondOk (temper (readWord s.state s.index.toNat h)) (setIndex (s.index + 1) s)) := by
  have hu : ¬ unseeded s.index := by
    intro hc
    rw [hc] at h
    exact absurd h (by decide)
  have he : ¬ exhausted s.index := by
    simp only [exhausted, exhaustedIndex]
    bv_omega
  simp [execNext, hu, he, drawWord]

end Sys2Proof.Machine
end

