-- ==== Sys2Proof/Laws/Step.lean ====
section
/-! SUPPORT. What a command and a step can do, said once: every command answers a next state, of one of four shapes, and a step is a
reset, a wait, an illegal command or a command. -/

namespace Sys2Proof.Machine

/-- A seeding command that succeeds leaves one array, whatever the state before (R58). -/
theorem exec_seedsBlock {i : Instr} (hi : i.seedsBlock) :
    ∃ a, FreshlySeeded a ∧ ∀ s, exec i s = .next (respondOk 0 (setIndex exhaustedIndex (setWords a s))) := by
  cases i with
  | seedDefault =>
    refine ⟨initScalarWords defaultSeed (unspecifiedArray 0), .scalar _ _, fun s => ?_⟩
    simp only [exec, execSeedDefault, initScalar, initScalarWords_forgets defaultSeed s.state (unspecifiedArray 0)]
  | seedScalar seed =>
    refine ⟨initScalarWords seed (unspecifiedArray 0), .scalar _ _, fun s => ?_⟩
    simp only [exec, execSeedScalar, initScalar, initScalarWords_forgets seed s.state (unspecifiedArray 0)]
  | seedArray key =>
    have hk : 0 < key.length := List.length_pos_iff.mpr hi
    refine ⟨seedArrayWords key hk (unspecifiedArray 0), .array _ _ _, fun s => ?_⟩
    simp only [exec, execSeedArray, hk, dite_true, initScalar, setWords_setIndex, setWords_setWords,
      seedArrayWords_forgets key hk s.state (unspecifiedArray 0)]
  | next => exact hi.elim

/-- The empty seed sequence (R63, R81). -/
theorem execSeedArray_nil (s : State) :
    execSeedArray [] s = .next (raiseError .invalidSeed 0x0300000000000000 s) := by
  have h : headerOf (.seedArray []) = 0x0300000000000000 := by decide
  simp [execSeedArray, h]

/-- The four shapes of a command's outcome: a seeding that succeeds, an error that changes nothing else, a draw after a twist, a draw
without one. -/
inductive ExecShape (i : Instr) (s : State) : State → Prop where
  | seeded (hi : i.seedsBlock) (a : StateArray) (ha : FreshlySeeded a)
      (hall : ∀ u, exec i u = .next (respondOk 0 (setIndex exhaustedIndex (setWords a u)))) :
      ExecShape i s (respondOk 0 (setIndex exhaustedIndex (setWords a s)))
  | emptySeed (hi : i = .seedArray []) : ExecShape i s (raiseError .invalidSeed 0x0300000000000000 s)
  | notSeeded (hi : i = .next) (hs : s.index = 313) : ExecShape i s (raiseError .notSeeded 0x0400000000000000 s)
  | twisted (hi : i = .next) (hs : s.index ≠ 313) (he : 312 ≤ s.index) :
      ExecShape i s (respondOk (temper (readWord (twistWords s.state) 0)) (setIndex 1 (setWords (twistWords s.state) s)))
  | drawn (hi : i = .next) (h : s.index.toNat < 312) :
      ExecShape i s (respondOk (temper (readWord s.state s.index.toNat h)) (setIndex (s.index + 1) s))

/-- Every command answers a next state, of one of the shapes. -/
theorem exec_shape (i : Instr) (s : State) : ∃ t, exec i s = .next t ∧ ExecShape i s t := by
  by_cases hi : i.seedsBlock
  · obtain ⟨a, ha, hall⟩ := exec_seedsBlock hi
    exact ⟨_, hall s, .seeded hi a ha hall⟩
  · cases i with
    | seedDefault => exact (hi trivial).elim
    | seedScalar seed => exact (hi trivial).elim
    | seedArray key =>
      have hk : key = [] := by simpa [Instr.seedsBlock] using hi
      subst hk
      exact ⟨_, execSeedArray_nil s, .emptySeed rfl⟩
    | next =>
      have hh : headerOf .next = 0x0400000000000000 := by decide
      by_cases hu : s.index = 313
      · exact ⟨_, (execNext_of_unseeded s hu).trans (by rw [hh]), .notSeeded rfl hu⟩
      · by_cases he : (312 : BitVec 9) ≤ s.index
        · exact ⟨_, execNext_of_exhausted s hu he, .twisted rfl hu he⟩
        · have hlt : s.index.toNat < 312 := by bv_omega
          exact ⟨_, execNext_of_unread s hlt, .drawn rfl hlt⟩

/-- The shape of the answer of a command that is known to answer `t`. -/
theorem shape_of_exec {i : Instr} {s t : State} (h : exec i s = .next t) : ExecShape i s t := by
  obtain ⟨t', ht', hs⟩ := exec_shape i s
  rw [h] at ht'
  cases ht'
  exact hs

/-- What a step can do. -/
inductive StepShape (s : State) : State → Prop where
  | reset (hr : s.rst = true) : StepShape s (takeReset s)
  | wait (hr : s.rst = false) (hd : decode s.cmdPort = .incomplete) : StepShape s s
  | illegal (hr : s.rst = false) (why : IllegalReason) (header : Word) (rest : List Word)
      (hd : decode s.cmdPort = .illegal why header rest) : StepShape s (execIllegal header (setCmdPort rest s))
  | command (hr : s.rst = false) (i : Instr) (rest : List Word) (hd : decode s.cmdPort = .command i rest) (t : State)
      (he : exec i (setCmdPort rest s) = .next t) (hs : ExecShape i (setCmdPort rest s) t) : StepShape s t

/-- Every step answers a next state, of one of the shapes. -/
theorem step_shape (s : State) : ∃ t, step s = .next t ∧ StepShape s t := by
  cases hr : s.rst with
  | true => exact ⟨takeReset s, by simp [step, hr], .reset hr⟩
  | false =>
    cases hd : decode s.cmdPort with
    | incomplete => exact ⟨s, by simp [step, hr, hd], .wait hr hd⟩
    | illegal why header rest =>
      exact ⟨execIllegal header (setCmdPort rest s), by simp [step, hr, hd], .illegal hr why header rest hd⟩
    | command i rest =>
      obtain ⟨t, ht, hs⟩ := exec_shape i (setCmdPort rest s)
      exact ⟨t, by simp [step, hr, hd, ht], .command hr i rest hd t ht hs⟩

/-- The shape of a step that is known to answer `t`. -/
theorem shape_of_step {s t : State} (h : step s = .next t) : StepShape s t := by
  obtain ⟨t', ht', hs⟩ := step_shape s
  rw [h] at ht'
  cases ht'
  exact hs

/-- A run of one more step goes on from the step's next state. -/
theorem run_of_core_step (M : Host.Core) {n : Nat} {s t : M.State} (h : M.step s = .next t) : M.run (n + 1) s = M.run n t := by
  rw [Host.Core.run, h]

/-- The same for this machine. -/
theorem run_of_step {n : Nat} {s t : State} (h : step s = .next t) : core.run (n + 1) s = core.run n t :=
  run_of_core_step core h

/-- What a command's answer always keeps, and its one response (R45). -/
theorem exec_frame {i : Instr} {s t : State} (h : exec i s = .next t) :
    t.cmdPort = s.cmdPort ∧ t.rst = s.rst ∧ t.resetCount = s.resetCount ∧ ∃ r, t.rspPort = s.rspPort ++ [r] := by
  cases shape_of_exec h <;> simp

end Sys2Proof.Machine
end

