-- ==== Sys2Proof/Tests/Slice0.lean ====
section
/-! SUPPORT. The model's own tests. Every expected value is one the spec gives: 95_test_vectors.md, or the example of the rule named.
After them, the witnesses: for each statement with hypotheses, values that meet all of them. -/

namespace Sys2Proof.Tests

open Sys2Proof.Machine

/-! Well-formedness: the one check, on a term it refuses and on its boundary. -/

theorem wellFormed_of_length {key : List Word} {n : Nat} (h : key.length = n) :
    (Instr.seedArray key).wellFormed = decide (n < 2 ^ 32) := by
  simp [Instr.wellFormed, h]

theorem test_wellFormed_refuses_long_key : (Instr.seedArray (List.replicate (2 ^ 32) 0)).wellFormed = false :=
  (wellFormed_of_length List.length_replicate).trans (by decide)

theorem test_wellFormed_longest_key : (Instr.seedArray (List.replicate (2 ^ 32 - 1) 0)).wellFormed = true :=
  (wellFormed_of_length List.length_replicate).trans (by decide)

theorem test_wellFormed_empty_key : (Instr.seedArray []).wellFormed = true := by decide

/-! Decoding: words written out bit by bit from 30_encoding.md rule R42 (`OPC`, `RSV`, `LEN`) and from its section 7. -/

theorem test_decode_seedDefault :
    decode [0b0000000100000000000000000000000000000000000000000000000000000000] = .command .seedDefault [] := by decide

theorem test_decode_seedScalar :
    decode [0b0000001000000000000000000000000000000000000000000000000000000001, 0xFFFFFFFFFFFFFFFF, 5]
      = .command (.seedScalar 0xFFFFFFFFFFFFFFFF) [5] := by decide

theorem test_decode_seedArray :
    decode [0b0000001100000000000000000000000000000000000000000000000000000100, 0x12345, 0x23456, 0x34567, 0x45678]
      = .command (.seedArray [0x12345, 0x23456, 0x34567, 0x45678]) [] := by decide

theorem test_decode_next :
    decode [0b0000010000000000000000000000000000000000000000000000000000000000] = .command .next [] := by decide

theorem test_decode_longest_key_header : decodeHeader 0x03000000FFFFFFFF = .seedArray 0xFFFFFFFF := by decide

theorem test_decode_refuses_other_opcodes :
    decodeHeader 0x0000000000000000 = .illegal .unknownOpcode ∧ decodeHeader 0x0500000000000000 = .illegal .unknownOpcode ∧
    decodeHeader 0xFF00000000000003 = .illegal .unknownOpcode ∧ decodeHeader 0xFFFFFFFFFFFFFFFF = .illegal .reservedBits := by decide

theorem test_decode_refuses_lengths :
    decodeHeader 0x0100000000000001 = .illegal .wrongLength ∧ decodeHeader 0x0200000000000000 = .illegal .wrongLength ∧
    decodeHeader 0x0200000000000002 = .illegal .wrongLength ∧ decodeHeader 0x0400000000000001 = .illegal .wrongLength := by decide

theorem test_decode_reserved_bits_come_first : decodeHeader 0x0300000100000000 = .illegal .reservedBits := by decide

theorem test_decode_waits_for_payload : decode [0x0300000000000002, 1] = .incomplete := by decide

theorem test_encode_words :
    encode .seedDefault = [0x0100000000000000] ∧ encode (.seedScalar 7) = [0x0200000000000001, 7] ∧
    encode (.seedArray [1, 2]) = [0x0300000000000002, 1, 2] ∧ encode .next = [0x0400000000000000] := by decide

theorem test_table_words :
    decodeTableWord 64 0x0100000000000000 = some .seedDefault ∧ decodeTableWord 64 0x0200000000000001 = some (.seedScalar 0) ∧
    decodeTableWord 64 0x0300000000000002 = some (.seedArray [0, 0]) ∧ decodeTableWord 64 0x0400000000000000 = some .next ∧
    decodeTableWord 64 0 = none ∧ decodeTableWord 128 0x00000000000000090200000000000001 = some (.seedScalar 9) := by decide

/-! The procedures, on an array of zeros with a few words set. -/

/-- The all-zero array. -/
def zeros : StateArray := Vector.replicate 312 0

/-- 40_seed_scalar.md R55: seeds 5489 and 2^64 - 1. -/
theorem test_initScalar_first_step :
    readWord (initScalarStep 1 (by omega) (writeWord zeros 0 5489)) 1 = 0xB5347F47116BD3DE ∧
    readWord (initScalarStep 1 (by omega) (writeWord zeros 0 0xFFFFFFFFFFFFFFFF)) 1 = 0x9EB82F4ACDAA034D := by decide +kernel

/-- 95_test_vectors.md section 2.3, forward iteration 1, and with the key 2^64 - 1 of section 2.4: the additions wrap. -/
theorem test_mixFwd_first_step :
    readWord (mixFwdStep [0x12345, 0x23456, 0x34567, 0x45678]
      ⟨writeWord (writeWord zeros 0 0x12BD6AA) 1 0x597276B55D2511E3, firstCursor, ⟨0, by decide⟩⟩).arr 1 = 0xFF376B2D160A70F6 ∧
    readWord (mixFwdStep [0xFFFFFFFFFFFFFFFF]
      ⟨writeWord (writeWord zeros 0 0x12BD6AA) 1 0x597276B55D2511E3, firstCursor, ⟨0, by decide⟩⟩).arr 1 = 0xFF376B2D16094DB0 := by
  decide +kernel

/-- 95_test_vectors.md section 2.3, forward iteration 2: the `j` that is added is the one before it advances. -/
theorem test_mixFwd_second_step :
    let p := mixFwdStep [0x12345, 0x23456, 0x34567, 0x45678]
      ⟨writeWord (writeWord zeros 1 0xFF376B2D160A70F6) 2 0x7E4A9BB343ED42BC, ⟨2, by decide⟩, ⟨1, by decide⟩⟩
    readWord p.arr 2 = 0xC4C5103EFBCEED4C ∧ p.i.val = 3 ∧ p.j.val = 2 := by decide +kernel

/-- 95_test_vectors.md section 2.3, reverse iteration 1: the `i` that is subtracted is the one before it advances. -/
theorem test_mixRev_first_step :
    let p := mixRevStep (writeWord (writeWord zeros 1 0x927C8F0A01A393EE) 2 0xC4C5103EFBCEED4C, ⟨2, by decide⟩)
    readWord p.1 2 = 0x20D8FFBDC1559D6E ∧ p.2.val = 3 := by decide +kernel

/-- 41_seed_array.md R59: the wrap copies the last word over word 0. -/
theorem test_advanceI_wraps :
    readWord (advanceI (writeWord zeros 311 0xA236F60975823603) ⟨311, by decide⟩).1 0 = 0xA236F60975823603 ∧
    (advanceI zeros ⟨311, by decide⟩).2.val = 1 ∧ (advanceI zeros ⟨5, by decide⟩).2.val = 6 := by decide +kernel

/-- 42_twist.md R66 and R67, the examples. -/
theorem test_combine : combine 0x0123456789ABCDEF 0xFEDCBA9876543210 = 0x01234567F6543210 := by decide

theorem test_twistWord :
    twistWord 1 0 = 0xB5026F5AA96619E9 ∧ twistWord 0xFFFFFFFFFFFFFFFF 0xFFFFFFFFFFFFFFFF = 0x35026F5AA96619E9 := by decide

/-- 42_twist.md R68, R69 and R70, the examples: the second part and the last step read new words. -/
theorem test_twist_parts :
    readWord (twistLowStep 0 (by omega) (writeWord zeros 1 1)) 0 = 0xB5026F5AA96619E9 ∧
    readWord (twistHighStep 156 (by omega) (writeWord zeros 0 0xB5026F5AA96619E9)) 156 = 0xB5026F5AA96619E9 ∧
    readWord (twistLastStep (writeWord zeros 0 0xB5026F5AA96619E9)) 311 = 0xB5026F5ABDD5151D := by decide +kernel

/-- 95_test_vectors.md section 2.5. -/
theorem test_temper :
    temper 1 = 0x0040002000020801 ∧ temper 0xFFFFFFFFFFFFFFFF = 0x7BFEEEEFEFA1D577 ∧ temper 0x0123456789ABCDEF = 0x2254DA7001198660 := by
  decide

/-! Single steps. -/

/-- An outcome's response port, as numbers. -/
def responses : Host.Outcome State Fault Refusal → List (Nat × Nat)
  | .next t => t.rspPort.map fun r => (r.status.toNat, r.data.toNat)
  | .fault _ => []
  | .refused _ => []

/-- The state of a next outcome. -/
def after (s : State) : Host.Outcome State Fault Refusal → State
  | .next t => t
  | .fault _ => s
  | .refused _ => s

/-- A block whose array is 0 but for word 0, at a given place of the sequence, with given command words at its port. -/
def block (index : BitVec 9) (w0 : Word) (words : List Word) : State :=
  { State.reset with state := writeWord zeros 0 w0, index := index, cmdPort := words }

/-- 95_test_vectors.md section 2.7, error responses; the unseeded block is the reset state. -/
theorem test_errors_on_unseeded_block :
    responses (step (State.reset.withFetchWord 64 0x0400000000000000)) = [(2, 0x0400000000000000)] ∧
    responses (step (State.reset.withFetchWord 64 0x0300000000000000)) = [(1, 0x0300000000000000)] ∧
    responses (step (State.reset.withFetchWord 64 0x0400000000000001)) = [(3, 0x0400000000000001)] ∧
    (after State.reset (step (State.reset.withFetchWord 64 0x0400000000000000))).index = 313 := by decide +kernel

/-- 95_test_vectors.md section 2.7: the empty key on a seeded block leaves `index = 2`; an illegal command takes its payload. -/
theorem test_errors_on_seeded_block :
    (after State.reset (step (block 2 0 [0x0300000000000000]))).index = 2 ∧
    responses (step (block 2 0 [0x0400000000000001, 7, 9])) = [(3, 0x0400000000000001)] ∧
    (after State.reset (step (block 2 0 [0x0400000000000001, 7, 9]))).cmdPort = [9] := by decide +kernel

/-- 43_temper_next.md R75, the example from the point where the twist is done: word 0 of the twisted default-seed array tempers to the
source's value 14514284786278117030. -/
theorem test_next_without_twist :
    responses (step (block 0 0x245B1C66F2BDC210 [0x0400000000000000])) = [(0, 14514284786278117030)] ∧
    (after State.reset (step (block 0 0x245B1C66F2BDC210 [0x0400000000000000]))).index = 1 := by decide +kernel

/-- The draw at index 311 does not twist: `index` becomes 312 and word 0 stays (R75). -/
theorem test_next_at_last_word :
    (after State.reset (step (block 311 5 [0x0400000000000000]))).index = 312 ∧
    readWord (after State.reset (step (block 311 5 [0x0400000000000000]))).state 0 = 5 := by decide +kernel

/-- 95_test_vectors.md section 2.6: `SEED_SCALAR 0`, the recurrence's first words, and `(OK, 0)`. -/
theorem test_seedScalar :
    responses (step (State.reset.withFetchWord 64 0x0200000000000001)) = [(0, 0)] ∧
    readWord (after State.reset (step (State.reset.withFetchWord 64 0x0200000000000001))).state 2 = 0x5851F42D4C957F2F := by
  decide +kernel

/-- The source's reference value (MT §8): `SEED_DEFAULT`, then `NEXT`. -/
theorem test_default_seed_reference_output :
    responses (execNext (after State.reset (execSeedDefault (block 7 0 [])))) = [(0, 0), (0, 14514284786278117030)] := by
  decide +kernel

theorem test_waiting_changes_nothing :
    (after State.reset (step (hostSend [0x0300000000000002, 1] State.reset))).cmdPort = [0x0300000000000002, 1] ∧
    responses (step (hostSend [0x0300000000000002, 1] State.reset)) = [] := by decide +kernel

theorem test_reset_empties_ports :
    (after State.reset (step (hostReset (sendResponse ⟨0, 1⟩ (block 5 0 [1, 2]))))).cmdPort = [] ∧
    responses (step (hostReset (sendResponse ⟨0, 1⟩ (block 5 0 [1, 2])))) = [] ∧
    (after State.reset (step (hostReset (block 5 0 [1, 2])))).index = 313 := by decide +kernel

/-! Witnesses. `witness_<Statement>` meets the hypotheses of `Obligations.<Statement>`, one conjunct for each clause, at boundary values
where a clause has a range. -/

theorem witness_ResetInputOverridesAllWork : (hostReset (block 5 0 [1, 2])).rst = true := rfl

theorem witness_LaterWordsDoNotDisturbACommand :
    (block 5 0 [0x0400000000000000]).rst = false ∧ decode (block 5 0 [0x0400000000000000]).cmdPort ≠ .incomplete := by decide +kernel

theorem witness_TakingResponsesDoesNotDisturbTheBlock :
    let s := sendResponse ⟨0, 9⟩ (block 5 0 [0x0400000000000000])
    s.rst = false ∧ hostTake s = some (⟨0, 9⟩, block 5 0 [0x0400000000000000]) := ⟨rfl, rfl⟩

theorem witness_WriteReplacesOneWholeWord : (0 < 312) ∧ (311 < 312) ∧ (311 ≠ 0) := by decide

theorem witness_DecodeOfEncode :
    Instr.wellFormed .seedDefault = true ∧ (Instr.seedScalar 0).wellFormed = true ∧ (Instr.seedArray []).wellFormed = true ∧
    (Instr.seedArray [1]).wellFormed = true ∧ Instr.wellFormed .next = true := by decide

theorem witness_EncodeOfDecode : decode [0x0300000000000001, 5, 6] = .command (.seedArray [5]) [6] := by decide

theorem witness_StepRunsTheDecodedCommand :
    (block 5 0 [0x0200000000000001, 7, 8]).rst = false ∧
    decode (block 5 0 [0x0200000000000001, 7, 8]).cmdPort = .command (.seedScalar 7) [8] := by decide +kernel

/-- One header for each way to be illegal: an unknown opcode below and above the known ones, reserved bits, a length that `SEED_DEFAULT`
and `NEXT` do not allow, and the two lengths around the one `SEED_SCALAR` allows. -/
theorem witness_IllegalCommandIsAnsweredAndDiscarded :
    (block 5 0 [0x0400000000000001, 7, 9]).rst = false ∧
    (block 5 0 [0x0400000000000001, 7, 9]).cmdPort = 0x0400000000000001 :: ([7] ++ [9]) ∧
    [(7 : Word)].length = (0x0400000000000001 : Word).toNat % 2 ^ 32 ∧
    ((0x0400000000000001 : Word).toNat / 2 ^ 56 ∈ [0x01, 0x04] ∧ (0x0400000000000001 : Word).toNat % 2 ^ 32 ≠ 0) ∧
    ((0x0100000000000001 : Word).toNat / 2 ^ 56 ∈ [0x01, 0x04] ∧ (0x0100000000000001 : Word).toNat % 2 ^ 32 ≠ 0) ∧
    ((0x0000000000000000 : Word).toNat / 2 ^ 56 ∉ [0x01, 0x02, 0x03, 0x04]) ∧
    ((0x0500000000000000 : Word).toNat / 2 ^ 56 ∉ [0x01, 0x02, 0x03, 0x04]) ∧
    ((0x0300000100000000 : Word).toNat / 2 ^ 32 % 2 ^ 24 ≠ 0) ∧
    ((0x0200000000000000 : Word).toNat / 2 ^ 56 = 0x02 ∧ (0x0200000000000000 : Word).toNat % 2 ^ 32 ≠ 1) ∧
    ((0x0200000000000002 : Word).toNat / 2 ^ 56 = 0x02 ∧ (0x0200000000000002 : Word).toNat % 2 ^ 32 ≠ 1) := by decide +kernel

/-- No word; a header and one word too few; a header and exactly its words. -/
theorem witness_EveryWholeCommandGetsOneResponse :
    State.reset.rst = false ∧ State.reset.cmdPort = [] ∧
    (block 5 0 [0x0300000000000002, 1]).cmdPort = 0x0300000000000002 :: [1] ∧
    [(1 : Word)].length < (0x0300000000000002 : Word).toNat % 2 ^ 32 ∧
    (block 5 0 [0x0300000000000002, 1, 2]).cmdPort = 0x0300000000000002 :: [1, 2] ∧
    (0x0300000000000002 : Word).toNat % 2 ^ 32 ≤ [(1 : Word), 2].length := by decide +kernel

theorem witness_ChecksInOrderDecideTheResponse :
    (block 313 0 [0x0400000000000001, 7]).rst = false ∧
    (block 313 0 [0x0400000000000001, 7]).cmdPort = 0x0400000000000001 :: [7] ∧
    (0x0400000000000001 : Word).toNat % 2 ^ 32 ≤ [(7 : Word)].length := by decide +kernel

theorem witness_ErrorsChangeNothingElse :
    ∃ (t : State) (r : Response), (block 2 0 [0x0300000000000000]).rst = false ∧ step (block 2 0 [0x0300000000000000]) = .next t ∧
      t.rspPort = (block 2 0 [0x0300000000000000]).rspPort ++ [r] ∧ r.status ≠ 0 :=
  ⟨raiseError .invalidSeed 0x0300000000000000 (block 2 0 []), ⟨0x01, 0x0300000000000000⟩, rfl,
    by
      have hd : decode (block 2 0 [0x0300000000000000]).cmdPort = .command (.seedArray []) [] := by decide
      simp only [step, hd]
      exact execSeedArray_nil (block 2 0 []), rfl, by decide⟩

theorem witness_SeedingForgetsHistory :
    Instr.seedDefault.seedsBlock ∧ (Instr.seedScalar 0).seedsBlock ∧ (Instr.seedArray [0]).seedsBlock :=
  ⟨trivial, trivial, by simp [Instr.seedsBlock]⟩

theorem witness_CursorAdvance :
    (⟨311, by decide⟩ : StateCursor).val = 311 ∧ (⟨310, by decide⟩ : StateCursor).val + 1 ≤ 311 ∧
    (⟨1, by decide⟩ : StateCursor).val + 1 ≤ 311 := by decide

theorem witness_ForwardPassReturnsItsCursor : 0 < [(0 : Word)].length := by decide

theorem witness_ArraySeedingForcesWordZero : [(0 : Word)] ≠ [] ∧ (1 ≤ 1 ∧ 1 ≤ 311) ∧ (1 ≤ 311 ∧ 311 ≤ 311) := by decide

theorem witness_EmptySeedIsRejected :
    (block 2 0 [0x0300000000000000, 4]).rst = false ∧
    (block 2 0 [0x0300000000000000, 4]).cmdPort = 0x0300000000000000 :: [4] := by decide +kernel

/-- With `len = 1` the chain has `K = 312`: its first and last forward and reverse iterations. -/
theorem witness_ArraySeedingIsOneMixingChain :
    [(0 : Word)] ≠ [] ∧ (1 ≤ 1 ∧ 1 ≤ max 312 [(0 : Word)].length) ∧ (1 ≤ 312 ∧ 312 ≤ max 312 [(0 : Word)].length) ∧
    (max 312 [(0 : Word)].length < 313 ∧ 313 ≤ max 312 [(0 : Word)].length + 311) ∧
    (max 312 [(0 : Word)].length < 623 ∧ 623 ≤ max 312 [(0 : Word)].length + 311) := by decide

theorem witness_TwistWordByLowBit : (2 : Word).getLsbD 0 = false ∧ (1 : Word).getLsbD 0 = true ∧ 63 < 64 := by decide

theorem witness_TwistWordsOldAndNew : 0 ≤ 155 ∧ 155 ≤ 155 ∧ (156 ≤ 156 ∧ 156 ≤ 310) ∧ (156 ≤ 310 ∧ 310 ≤ 310) := by decide

/-- Two arrays that differ in bits 30:0 of word 0 only. -/
theorem witness_TwistIgnoresLowBitsOfWordZero :
    readWord (writeWord zeros 0 0x7FFFFFFF) 0 >>> 31 = readWord zeros 0 >>> 31 ∧
    (∀ (e : Nat) (he : 1 ≤ e ∧ e ≤ 311), readWord (writeWord zeros 0 0x7FFFFFFF) e = readWord zeros e) ∧
    readWord (writeWord zeros 0 0x7FFFFFFF) 0 ≠ readWord zeros 0 :=
  ⟨by decide +kernel, fun _ _ => readWord_writeWord_of_ne _ _ _ _ (by omega) _ (by omega), by decide +kernel⟩

theorem witness_TwistKeepsTheZeroArray : ∀ (e : Nat) (he : e < 312), readWord zeros e he = 0 :=
  fun e he => by simp [readWord, zeros]

/-- `index` at 313, 312, 311 and 0. -/
theorem witness_NextInItsThreeCases :
    State.reset.index = 313 ∧ ((block 312 0 []).index ≠ 313 ∧ 312 ≤ (block 312 0 []).index.toNat) ∧
    (block 311 0 []).index.toNat < 312 ∧ (block 0 0 []).index.toNat < 312 := by decide +kernel

theorem witness_UnseededUntilASeedingCommandSucceeds :
    ∃ t, (block 313 0 [0x0100000000000000]).index = 313 ∧ step (block 313 0 [0x0100000000000000]) = .next t ∧ t.index ≠ 313 :=
  ⟨respondOk 0 (initScalar defaultSeed (block 313 0 [])), rfl,
    by
      have hd : decode (block 313 0 [0x0100000000000000]).cmdPort = .command .seedDefault [] := by decide
      simp only [step, hd]
      rfl, by decide +kernel⟩

theorem witness_PeriodBoundary : (block 312 5 []).index = 312 := rfl

theorem witness_WaysIndexChanges :
    ∃ t, step (block 0 5 [0x0400000000000000]) = .next t ∧ t.index ≠ (block 0 5 [0x0400000000000000]).index := by
  have hd : decode (block 0 5 [0x0400000000000000]).cmdPort = .command .next [] := by decide
  have hr : (block 0 5 [0x0400000000000000]).rst = false := rfl
  obtain ⟨t, ht, hs⟩ := step_shape (block 0 5 [0x0400000000000000])
  refine ⟨t, ht, ?_⟩
  have he : step (block 0 5 [0x0400000000000000]) = execNext (block 0 5 []) := by
    simp only [step, hd]
    rfl
  rw [he, execNext_of_unread _ (by decide)] at ht
  cases ht
  decide +kernel

/-- A seeding command that writes the array: word 0 was 5 and becomes 7. -/
theorem witness_WhatWritesTheArray :
    ∃ t, step (block 0 5 [0x0200000000000001, 7]) = .next t ∧ t.state ≠ (block 0 5 [0x0200000000000001, 7]).state := by
  have hd : decode (block 0 5 [0x0200000000000001, 7]).cmdPort = .command (.seedScalar 7) [] := by decide
  refine ⟨respondOk 0 (initScalar 7 (block 0 5 [])), ?_, fun h => ?_⟩
  · simp only [step, hd]
    rfl
  · have h7 : readWord (initScalarWords 7 (block 0 5 []).state) 0 = 7 := (initScalarWords_spec 7 _).1
    have h5 : readWord (block 0 5 [0x0200000000000001, 7]).state 0 = 5 := readWord_writeWord_self _ _ _ _
    rw [← h] at h5
    exact absurd (h7.symm.trans h5) (by decide)

theorem witness_OnlyResetUnseeds :
    ∃ t, (hostReset (block 5 0 [])).index ≠ 313 ∧ step (hostReset (block 5 0 [])) = .next t ∧ t.index = 313 :=
  ⟨takeReset (hostReset (block 5 0 [])), by decide +kernel, rfl, rfl⟩

theorem witness_RunExecutesCommandsInOrder :
    let s := block 5 0 [0x0200000000000001, 7, 0x0400000000000000, 0x0300000000000001]
    s.rst = false ∧ (∀ i ∈ [Instr.seedScalar 7, Instr.next], i.wellFormed = true) ∧
    s.cmdPort = [Instr.seedScalar 7, Instr.next].flatMap encode ++ [0x0300000000000001] := by decide +kernel

theorem witness_EveryWordSequenceIsWorkedOff : (block 5 0 [0x0400000000000000, 0]).rst = false := rfl

/-- Two unseeded blocks with different arrays. -/
theorem witness_UnspecifiedContentNeverReachesAnOutput :
    Alike (block 313 0 [0x0400000000000000]) (block 313 1 [0x0400000000000000]) ∧
    readWord (block 313 0 []).state 0 ≠ readWord (block 313 1 []).state 0 :=
  ⟨⟨rfl, rfl, rfl, rfl, fun h => absurd rfl h⟩, by decide +kernel⟩

/-- The legal places of `index` at their ends: 1, 312 and 313. -/
theorem witness_StepKeepsLegalValues :
    LegalValues (block 1 0 []) ∧ LegalValues (block 312 0 []) ∧ LegalValues (block 313 0 []) ∧
    ∃ t, step (block 313 0 []) = .next t :=
  ⟨⟨by decide +kernel, by decide +kernel, by simp [block, State.reset]⟩,
    ⟨by decide +kernel, by decide +kernel, by simp [block, State.reset]⟩,
    ⟨by decide +kernel, by decide +kernel, by simp [block, State.reset]⟩, _, rfl⟩

/-- A seeded block on its sequence: fresh from `SEED_SCALAR 7`. -/
theorem witness_StepKeepsPlaceInSequence :
    OnSequence (initScalar 7 (block 313 0 [])) ∧ (initScalar 7 (block 313 0 [])).index ≠ 313 ∧
    ∃ t, step (initScalar 7 (block 313 0 [])) = .next t :=
  ⟨.inr ⟨initScalarWords 7 (block 313 0 []).state, 0, .scalar _ _, by decide +kernel, rfl⟩, by decide +kernel,
    (step_shape _).imp fun _ h => h.1⟩

end Sys2Proof.Tests
end

section
namespace Sys2Proof.Machine

/-! ## The constant table `MAGIC`, entry by entry (R28) -/

@[simp] theorem magic_false : magic false = 0 := rfl

@[simp] theorem magic_true : magic true = 0xB5026F5AA96619E9 := rfl

/-! ## The statements on the state array and the constants -/

/-- Settles O5, by the two rules for a read after a write: at the index written, and at any other. -/
theorem writeReplacesOneWholeWord : Obligations.WriteReplacesOneWholeWord := by
  intro a e v he
  constructor
  · exact readWord_writeWord_self a e v he
  · intro f hf hne
    exact readWord_writeWord_of_ne a e f v he hf hne

/-- Settles O6, from the two entries of the table. -/
theorem magicTable : Obligations.MagicTable := ⟨magic_false, magic_true⟩

end Sys2Proof.Machine
end

section
namespace Sys2Proof

/-! ## The header decoder and the header words of the legal commands (R46, R47, R53) -/

/-- The one header word with a given legal verdict; an illegal verdict has no such word. -/
def HeaderVerdict.header : HeaderVerdict → Option Word
  | .seedDefault => some (mkHeader 0x01 0)
  | .seedScalar => some (mkHeader 0x02 1)
  | .seedArray len => some (mkHeader 0x03 len)
  | .next => some (mkHeader 0x04 0)
  | .illegal _ => none

theorem decodeHeader_of_header {v : HeaderVerdict} {h : Word} (hv : v.header = some h) : decodeHeader h = v := by
  cases v with
  | illegal why => cases hv
  | seedDefault | seedScalar | seedArray len | next =>
    cases hv
    simp [decodeHeader]

/-- A header that passes every check of R53 is the word of its verdict, by its three fields. -/
theorem header_decodeHeader (h : Word) :
    (decodeHeader h).header = some h ∨ ∃ why, decodeHeader h = .illegal why := by
  by_cases hr : rsvField h = 0
  · have hword {opc len} (ho : opcField h = opc) (hl : lenField h = len) : some (mkHeader opc len) = some h :=
      congrArg some ((eq_mkHeader_iff h opc len).mpr ⟨ho, hr, hl⟩).symm
    simp only [decodeHeader, hr, ne_eq, not_true_eq_false, if_false]
    split_ifs with h1 hl h2 hl h3 h4 hl
    · exact .inl (hword h1 hl)
    · exact .inr ⟨.wrongLength, rfl⟩
    · exact .inl (hword h2 hl)
    · exact .inr ⟨.wrongLength, rfl⟩
    · exact .inl (hword h3 rfl)
    · exact .inl (hword h4 hl)
    · exact .inr ⟨.wrongLength, rfl⟩
    · exact .inr ⟨.unknownOpcode, rfl⟩
  · exact .inr ⟨.reservedBits, if_pos hr⟩

/-- Each legal verdict is given to its own header word and to no other. -/
theorem decodeHeader_eq_iff {v : HeaderVerdict} {w : Word} (hv : v.header = some w) (h : Word) :
    decodeHeader h = v ↔ h = w := by
  constructor
  · rintro rfl
    rcases header_decodeHeader h with hh | ⟨why, hw⟩
    · exact Option.some.inj (hh.symm.trans hv)
    · rw [hw] at hv
      cases hv
  · rintro rfl
    exact decodeHeader_of_header hv

/-- The header of `SEED_ARRAY` as a sum: `LEN` fills the low bits, which are 0 in the opcode's word. -/
theorem mkHeader_seedArray (n : BitVec 32) : mkHeader 0x03 n = 0x0300000000000000 + n.zeroExtend 64 := by
  apply BitVec.eq_of_toNat_eq
  have hn := n.isLt
  simp [mkHeader_toNat]
  omega

/-- Settles O8: a legal verdict has one header word, and an illegal one is what is left. -/
theorem headerVerdicts : Obligations.HeaderVerdicts := by
  intro h
  have hDefault : decodeHeader h = .seedDefault ↔ h = 0x0100000000000000 := decodeHeader_eq_iff rfl h
  have hScalar : decodeHeader h = .seedScalar ↔ h = 0x0200000000000001 := decodeHeader_eq_iff rfl h
  have hArray (n : BitVec 32) : decodeHeader h = .seedArray n ↔ h = 0x0300000000000000 + n.zeroExtend 64 :=
    mkHeader_seedArray n ▸ decodeHeader_eq_iff rfl h
  have hNext : decodeHeader h = .next ↔ h = 0x0400000000000000 := decodeHeader_eq_iff rfl h
  refine ⟨hDefault, hScalar, hArray, hNext, ?_⟩
  simp only [ne_eq, ← hDefault, ← hScalar, ← hArray, ← hNext]
  cases decodeHeader h <;> simp

end Sys2Proof
end

section
namespace Sys2Proof.Machine

/-! ## Scalar seeding: the command words and the meaning of the two commands (R46, R55 to R57) -/

/-- `SEED_SCALAR` has opcode 0x02 and one payload word (R46). -/
theorem encode_seedScalar (seed : Word) : encode (.seedScalar seed) = [0x0200000000000001, seed] := by
  have hHeader : headerOf (.seedScalar seed) = 0x0200000000000001 := rfl
  rw [encode, hHeader, payloadOf]

/-- `SEED_DEFAULT` has opcode 0x01 and no payload (R46). -/
theorem encode_seedDefault : encode .seedDefault = [0x0100000000000000] := by decide

/-- What a seeding command leaves, whatever its array: `index` at 312, the response `(OK, 0)` added, nothing else changed. -/
theorem respondOk_seeded_eq (a : StateArray) (s : State) :
    respondOk 0 (setIndex exhaustedIndex (setWords a s)) =
      { s with state := a, index := 312, rspPort := s.rspPort ++ [⟨0x00, 0⟩] } := rfl

/-- The whole next state of `SEED_SCALAR` (R55, R56). -/
theorem exec_seedScalar (seed : Word) (s : State) :
    exec (.seedScalar seed) s = .next { s with
      state := initScalarWords seed s.state, index := 312, rspPort := s.rspPort ++ [⟨0x00, 0⟩] } := by
  rw [exec, execSeedScalar, initScalar, respondOk_seeded_eq]

/-- `SEED_DEFAULT` is `SEED_SCALAR` with the default seed (R57). -/
theorem exec_seedDefault (s : State) : exec .seedDefault s = exec (.seedScalar 5489) s := rfl

/-- What both commands promise, without naming `INIT_SCALAR`: its array is known by its recurrence alone (R55). -/
theorem exec_seedScalar_recurrence (seed : Word) (s : State) :
    ∃ a : StateArray,
      exec (.seedScalar seed) s = .next { s with state := a, index := 312, rspPort := s.rspPort ++ [⟨0x00, 0⟩] } ∧
      readWord a 0 = seed ∧
      ∀ (i : Nat) (hi : 1 ≤ i ∧ i ≤ 311),
        readWord a i = 6364136223846793005 * (readWord a (i - 1) ^^^ (readWord a (i - 1) >>> 62)) + BitVec.ofNat 64 i := by
  obtain ⟨hZero, hRecurrence⟩ := initScalarWords_spec seed s.state
  exact ⟨initScalarWords seed s.state, exec_seedScalar seed s, hZero, hRecurrence⟩

/-! ## The statements on scalar seeding -/

/-- Settles O18, by the command's words and the recurrence that `INIT_SCALAR` leaves. -/
theorem scalarSeedingFillsTheArray : Obligations.ScalarSeedingFillsTheArray := by
  intro seed s
  exact ⟨encode_seedScalar seed, exec_seedScalar_recurrence seed s⟩

/-- Settles O19: `SEED_DEFAULT` is the case 5489 of scalar seeding. -/
theorem defaultSeedingFillsTheArray : Obligations.DefaultSeedingFillsTheArray := by
  intro s
  refine ⟨encode_seedDefault, exec_seedDefault s, ?_⟩
  rw [exec_seedDefault]
  exact exec_seedScalar_recurrence 5489 s

end Sys2Proof.Machine
end

section
namespace Sys2Proof.Machine

/-! ## Array seeding: the cursor over many iterations and the finalized word (R59, R62, R63) -/

/-- `n` runs of `ADVANCE_I` move the cursor `n` places along the cycle 1, 2, …, 311 (R59). -/
theorem forUp_advanceI_cursor (n : Nat) (p : StateArray × StateCursor) :
    (forUp n (fun _ q => advanceI q.1 q.2) p).2.val = (p.2.val - 1 + n) % 311 + 1 := by
  induction n with
  | zero =>
    have hp := p.2.property
    rw [forUp_zero]
    omega
  | succ n ih =>
    rw [forUp_succ, advanceI_cursor, ih]
    omega

/-- `SEED_ARRAY` with a non-empty key succeeds, and its array is the one of the four steps of R63. -/
theorem exec_seedArray_of_pos (key : List Word) (hk : 0 < key.length) (s : State) :
    exec (.seedArray key) s =
      .next (respondOk 0 (setWords (seedArrayWords key hk s.state) (initScalar baseSeed s))) := by
  rw [exec, execSeedArray, dif_pos hk]

/-- `FINALIZE` is the last of those steps, so it decides word 0 (R62, R63). -/
theorem readWord_seedArrayWords_zero (key : List Word) (hk : 0 < key.length) (a : StateArray) :
    readWord (seedArrayWords key hk a) 0 = topWord := by
  rw [seedArrayWords, readWord_finalize, if_pos rfl]

/-! ## The statements on the cursor and on the finalized word -/

/-- Settles O21: the two cases of `ADVANCE_I`, and an induction on the number of advances. -/
theorem cursorAdvance : Obligations.CursorAdvance := by
  intro a i
  refine ⟨fun hend => ?_, fun hbelow => ?_, fun n => ?_⟩
  · exact advanceI_of_eq a i hend
  · exact advanceI_of_lt a i hbelow
  · exact forUp_advanceI_cursor n (a, i)

/-- Settles O23: what `FINALIZE` leaves at each index, and that it is the last step of `SEED_ARRAY` on the array. -/
theorem arraySeedingForcesWordZero : Obligations.ArraySeedingForcesWordZero := by
  refine ⟨fun a => ⟨?_, fun e he => ?_⟩, fun key s hne => ?_⟩
  · rw [readWord_finalize, if_pos rfl, topWord]
  · rw [readWord_finalize, if_neg (by omega)]
  · have hk : 0 < key.length := List.length_pos_of_ne_nil hne
    refine ⟨_, exec_seedArray_of_pos key hk s, ?_⟩
    exact readWord_seedArrayWords_zero key hk s.state

end Sys2Proof.Machine
end

section
namespace Sys2Proof.Machine

/-! ## The twist: its two bit operations and every word of its result (R66 to R70, R72) -/

theorem upperMask_eq_shift : upperMask = BitVec.allOnes 64 <<< 31 := by decide

theorem lowerMask_eq_setWidth : lowerMask = (BitVec.allOnes 31).setWidth 64 := by decide

/-- `UPPER_MASK` has the bits 63:31. -/
theorem getLsbD_upperMask (k : Nat) (hk : k < 64) : upperMask.getLsbD k = !decide (k < 31) := by
  rw [upperMask_eq_shift, BitVec.getLsbD_shiftLeft, BitVec.getLsbD_allOnes]
  simp [hk, show k - 31 < 64 by omega]

/-- `LOWER_MASK` has the bits 30:0. -/
theorem getLsbD_lowerMask (k : Nat) (hk : k < 64) : lowerMask.getLsbD k = decide (k < 31) := by
  rw [lowerMask_eq_setWidth, BitVec.getLsbD_setWidth, BitVec.getLsbD_allOnes]
  simp [hk]

/-- Each bit of `COMBINE` is one of its second word below bit 31 and one of its first word from there on (R66). -/
theorem getLsbD_combine (u l : Word) (k : Nat) (hk : k < 64) :
    (combine u l).getLsbD k = if k < 31 then l.getLsbD k else u.getLsbD k := by
  rw [combine, BitVec.getLsbD_or, BitVec.getLsbD_and, BitVec.getLsbD_and, getLsbD_upperMask k hk, getLsbD_lowerMask k hk]
  by_cases hlow : k < 31
  · simp [hlow]
  · simp [hlow]

theorem twistWord_of_even (y src : Word) (h : y.getLsbD 0 = false) : twistWord y src = src ^^^ (y >>> 1) := by
  rw [twistWord, h, magic_false]
  exact BitVec.xor_zero

theorem twistWord_of_odd (y src : Word) (h : y.getLsbD 0 = true) :
    twistWord y src = src ^^^ (y >>> 1) ^^^ 0xB5026F5AA96619E9 := by
  rw [twistWord, h, magic_true]

theorem getLsbD_magic (b : Bool) (k : Nat) : (magic b).getLsbD k = (b && (0xB5026F5AA96619E9 : Word).getLsbD k) := by
  cases b with
  | false => simp
  | true => simp

/-- The logical shift brings a 0 into bit 63, and the bit above into every other. -/
theorem getLsbD_ushiftRight_one (y : Word) (k : Nat) :
    (y >>> 1).getLsbD k = (decide (k < 63) && y.getLsbD (k + 1)) := by
  rw [BitVec.getLsbD_ushiftRight, Nat.add_comm 1 k]
  by_cases hk : k < 63
  · simp [hk]
  · simp [hk, BitVec.getLsbD_of_ge y (k + 1) (by omega)]

/-- The part that writes a word is the last to touch it: `TWIST` leaves words 0 to 155 as the first part wrote them. -/
theorem readWord_twistWords_eq_twistLow (a : StateArray) (i : Nat) (hi : i ≤ 155) :
    readWord (twistWords a) i = readWord (twistLow a) i := by
  rw [twistWords, (twistLastStep_spec _).2 i (by omega), (twistHigh_spec _).2 i (by omega) (by omega)]

/-- `TWIST` leaves words 0 to 310 as the second part left them. -/
theorem readWord_twistWords_eq_twistHigh (a : StateArray) (i : Nat) (hi : i ≤ 310) :
    readWord (twistWords a) i = readWord (twistHigh (twistLow a)) i := by
  rw [twistWords, (twistLastStep_spec _).2 i (by omega)]

/-- Words 0 to 155 come from old words only (R68). -/
theorem readWord_twistWords_low (a : StateArray) (i : Nat) (hi : i ≤ 155) :
    readWord (twistWords a) i =
      twistWord (combine (readWord a i) (readWord a (i + 1))) (readWord a (i + 156)) := by
  rw [readWord_twistWords_eq_twistLow a i hi, (twistLow_spec a).1 i hi]

/-- Words 156 to 310: the second part's two old words are untouched by the first part, and its source word is final (R69). -/
theorem readWord_twistWords_high (a : StateArray) (i : Nat) (hi : 156 ≤ i ∧ i ≤ 310) :
    readWord (twistWords a) i =
      twistWord (combine (readWord a i) (readWord a (i + 1))) (readWord (twistWords a) (i - 156)) := by
  have hOld (e : Nat) (he : 156 ≤ e ∧ e < 312) : readWord (twistLow a) e = readWord a e := (twistLow_spec a).2 e he
  rw [readWord_twistWords_eq_twistHigh a i hi.2, (twistHigh_spec _).1 i hi, hOld i (by omega), hOld (i + 1) (by omega),
    readWord_twistWords_eq_twistHigh a (i - 156) (by omega)]

/-- Word 311: neither loop has written the old word 311, and the words 0 and 155 it uses are final (R70). -/
theorem readWord_twistWords_last (a : StateArray) :
    readWord (twistWords a) 311 =
      twistWord (combine (readWord a 311) (readWord (twistWords a) 0)) (readWord (twistWords a) 155) := by
  have hOld : readWord (twistHigh (twistLow a)) 311 = readWord a 311 := by
    rw [(twistHigh_spec _).2 311 (by omega) (by omega), (twistLow_spec a).2 311 (by omega)]
  rw [readWord_twistWords_eq_twistHigh a 0 (by omega), readWord_twistWords_eq_twistHigh a 155 (by omega), ← hOld]
  exact (twistLastStep_spec _).1

/-! ## The statements on the twist -/

/-- Settles O28, from the word that each of the three parts of `TWIST` leaves. -/
theorem twistWordsOldAndNew : Obligations.TwistWordsOldAndNew := by
  intro a
  exact ⟨readWord_twistWords_low a, readWord_twistWords_high a, readWord_twistWords_last a⟩

/-- Settles O26: the formula is the definition, and the two masks split the word at bit 31. -/
theorem combineSplitsAtBit31 : Obligations.CombineSplitsAtBit31 := by
  intro u l
  refine ⟨?_, fun k hk => getLsbD_combine u l k hk⟩
  rw [combine, upperMask, lowerMask]

/-- Settles O27, by the two values of `MAGIC` and by the bits of its three terms. -/
theorem twistWordByLowBit : Obligations.TwistWordByLowBit := by
  intro y src
  refine ⟨twistWord_of_even y src, twistWord_of_odd y src, fun k _ => ?_⟩
  rw [twistWord, BitVec.getLsbD_xor, BitVec.getLsbD_xor, getLsbD_ushiftRight_one, getLsbD_magic]

end Sys2Proof.Machine
end

section
namespace Sys2Proof.Machine

/-! ## `NEXT`, the whole next state in each of its cases (R75) -/

theorem headerOf_next : headerOf .next = 0x0400000000000000 := by decide

theorem encode_next : encode .next = [0x0400000000000000] := by
  rw [encode, headerOf_next, payloadOf]

theorem exec_next (s : State) : exec .next s = execNext s := rfl

/-- A draw's normal response goes with a new `index`; every other field is kept. -/
theorem respondOk_setIndex_eq (v : Word) (i : BitVec 9) (s : State) :
    respondOk v (setIndex i s) = { s with index := i, rspPort := s.rspPort ++ [⟨0x00, v⟩] } := rfl

theorem raiseError_notSeeded_eq (h : Word) (s : State) :
    raiseError .notSeeded h s = { s with rspPort := s.rspPort ++ [⟨0x02, h⟩] } := rfl

/-- An unseeded block answers the error and keeps everything else (R75, R82). -/
theorem exec_next_of_unseeded (s : State) (h : s.index = 313) :
    exec .next s = .next { s with rspPort := s.rspPort ++ [⟨0x02, 0x0400000000000000⟩] } := by
  rw [exec_next, execNext_of_unseeded s h, headerOf_next, raiseError_notSeeded_eq]

/-- An exhausted block is twisted and draws word 0 of the new array. -/
theorem exec_next_of_exhausted (s : State) (hs : s.index ≠ 313) (h : 312 ≤ s.index.toNat) :
    exec .next s = .next { s with
      state := twistWords s.state, index := 1, rspPort := s.rspPort ++ [⟨0x00, temper (readWord (twistWords s.state) 0)⟩] } := by
  have hle : (312 : BitVec 9) ≤ s.index := h
  rw [exec_next, execNext_of_exhausted s hs hle, respondOk_setIndex_eq, setWords]

/-- A block with unread words draws the word at `index`. -/
theorem exec_next_of_unread (s : State) (h : s.index.toNat < 312) :
    exec .next s = .next { s with
      index := s.index + 1, rspPort := s.rspPort ++ [⟨0x00, temper (readWord s.state s.index.toNat h)⟩] } := by
  rw [exec_next, execNext_of_unread s h, respondOk_setIndex_eq]

/-! ## The statements on tempering and on `NEXT` -/

/-- Settles O31: the words between the steps are the ones the definition names, and its masks are the constants of R73. -/
theorem temperingFormula : Obligations.TemperingFormula := by
  intro y0
  refine ⟨_, _, _, rfl, rfl, rfl, ?_⟩
  rw [temper, temperMask1, temperMask2, temperMask3]

/-- Settles O32, from the word of `NEXT` and its next state in each case. -/
theorem nextInItsThreeCases : Obligations.NextInItsThreeCases := by
  intro s
  exact ⟨encode_next, exec_next_of_unseeded s, exec_next_of_exhausted s, exec_next_of_unread s⟩

end Sys2Proof.Machine
end

section
namespace Sys2Proof.Machine

/-! ## The error checks: the status a whole command is answered with (R80, R87) -/

/-- The status that a header's verdict and `index` decide (R80): the empty key and the unseeded block are checked after decoding. -/
def verdictStatus (index : BitVec 9) : HeaderVerdict → Status
  | .illegal _ => .illegalCommand
  | .seedArray len => if len = 0 then .invalidSeed else .ok
  | .next => if index = 313 then .notSeeded else .ok
  | .seedDefault => .ok
  | .seedScalar => .ok

/-- The checks of R87 in their order, in the numbers of R42: the code of the first that fails. -/
def checkCode (index : BitVec 9) (h : Word) : BitVec 8 :=
  if h.toNat / 2 ^ 32 % 2 ^ 24 ≠ 0 then 0x03
  else if h.toNat / 2 ^ 56 ∉ [0x01, 0x02, 0x03, 0x04] then 0x03
  else if h.toNat / 2 ^ 56 ∈ [0x01, 0x04] ∧ h.toNat % 2 ^ 32 ≠ 0 then 0x03
  else if h.toNat / 2 ^ 56 = 0x02 ∧ h.toNat % 2 ^ 32 ≠ 1 then 0x03
  else if h.toNat / 2 ^ 56 = 0x03 ∧ h.toNat % 2 ^ 32 = 0 then 0x01
  else if h.toNat / 2 ^ 56 = 0x04 ∧ index = 313 then 0x02
  else 0x00

/-- The decoder's verdict and the checks after it are the checks of R87, one opcode at a time: both sides are read as functions of
the three fields as numbers, and for each opcode its lengths are told apart. -/
theorem code_verdictStatus (index : BitVec 9) (h : Word) :
    (verdictStatus index (decodeHeader h)).code = checkCode index h := by
  have hrsv (n : BitVec 24) : rsvField h = n ↔ h.toNat / 2 ^ 32 % 2 ^ 24 = n.toNat := rsvField_eq_iff h n
  have hopc (n : BitVec 8) : opcField h = n ↔ h.toNat / 2 ^ 56 = n.toNat := opcField_eq_iff h n
  have hlen (n : BitVec 32) : lenField h = n ↔ h.toNat % 2 ^ 32 = n.toNat := lenField_eq_iff h n
  rw [checkCode]
  unfold decodeHeader
  generalize h.toNat / 2 ^ 32 % 2 ^ 24 = rsv at *
  generalize h.toNat / 2 ^ 56 = opc at *
  generalize h.toNat % 2 ^ 32 = len at *
  simp only [ne_eq, hrsv, hopc, hlen]
  by_cases hr : rsv = 0
  · by_cases h1 : opc = 1
    · by_cases hl : len = 0 <;> simp [hr, h1, hl, verdictStatus, Status.code]
    by_cases h2 : opc = 2
    · by_cases hl : len = 1 <;> simp [hr, h2, hl, verdictStatus, Status.code]
    by_cases h3 : opc = 3
    · by_cases hl : len = 0 <;> simp [hr, h3, hl, hlen, verdictStatus, Status.code]
    by_cases h4 : opc = 4
    · by_cases hl : len = 0 <;> by_cases hs : index = 313#9 <;> simp [hr, h4, hl, hs, verdictStatus, Status.code]
    · simp [hr, h1, h2, h3, h4, verdictStatus, Status.code]
  · simp [hr, verdictStatus, Status.code]

theorem Status.code_eq_three_iff {e : Status} : e.code = 0x03 ↔ e = .illegalCommand := by
  cases e <;> decide

theorem Status.code_of_ne_ok {e : Status} (h : e ≠ .ok) : e.code = 0x01 ∨ e.code = 0x02 ∨ e.code = 0x03 := by
  cases e with
  | ok => exact (h rfl).elim
  | invalidSeed => exact .inl rfl
  | notSeeded => exact .inr (.inl rfl)
  | illegalCommand => exact .inr (.inr rfl)

/-- An illegal header fails one of the first four checks (R49). -/
theorem checkCode_of_illegal (index : BitVec 9) {h : Word}
    (hillegal : h.toNat / 2 ^ 56 ∉ [0x01, 0x02, 0x03, 0x04] ∨ h.toNat / 2 ^ 32 % 2 ^ 24 ≠ 0 ∨
      (h.toNat / 2 ^ 56 ∈ [0x01, 0x04] ∧ h.toNat % 2 ^ 32 ≠ 0) ∨ (h.toNat / 2 ^ 56 = 0x02 ∧ h.toNat % 2 ^ 32 ≠ 1)) :
    checkCode index h = 0x03 := by
  rcases hillegal with hopc | hrsv | hlen0 | hlen1
  · rw [checkCode, if_pos hopc, ite_self]
  · rw [checkCode, if_pos hrsv]
  · rw [checkCode, if_pos hlen0, ite_self, ite_self]
  · rw [checkCode, if_pos hlen1, ite_self, ite_self, ite_self]

/-! ## A step on a whole command: an error is the one effect, and a success answers `OK` (R41, R45, R88) -/

/-- A whole command is decoded from its header and exactly its `LEN` payload words (R41). -/
theorem decode_of_le {h : Word} {ws : List Word} (hl : h.toNat % 2 ^ 32 ≤ ws.length) :
    decode (h :: ws) = decodeFrame ⟨h, ws.take (h.toNat % 2 ^ 32), ws.drop (h.toNat % 2 ^ 32)⟩ := by
  rw [← lenField_toNat] at hl ⊢
  simp only [decode, frame_of_le hl]

/-- A port that holds no whole command: the block waits (R45). -/
theorem decode_of_lt {h : Word} {ws : List Word} (hl : ws.length < h.toNat % 2 ^ 32) : decode (h :: ws) = .incomplete := by
  rw [← lenField_toNat] at hl
  have hnone : frame (h :: ws) = none := (frame_eq_none_iff _).mpr (.inr ⟨h, ws, rfl, hl⟩)
  rw [decode, hnone]

theorem step_of_incomplete {s : State} (hr : s.rst = false) (hd : decode s.cmdPort = .incomplete) : step s = .next s := by
  simp [step, hr, hd]

theorem step_of_illegal {s : State} {why : IllegalReason} {h : Word} {rest : List Word} (hr : s.rst = false)
    (hd : decode s.cmdPort = .illegal why h rest) : step s = .next (execIllegal h (setCmdPort rest s)) := by
  simp [step, hr, hd]

theorem step_of_command {s : State} {i : Instr} {rest : List Word} (hr : s.rst = false)
    (hd : decode s.cmdPort = .command i rest) : step s = exec i (setCmdPort rest s) := by
  simp [step, hr, hd]

theorem exec_seedArray_nil (s : State) : exec (.seedArray []) s = .next (raiseError .invalidSeed 0x0300000000000000 s) :=
  execSeedArray_nil s

/-- Every command but the empty key and the draw of an unseeded block answers `OK` (R84). -/
theorem exec_answersOk {i : Instr} {s : State} (hkey : i ≠ .seedArray []) (hseeded : i = .next → s.index ≠ 313) :
    ∃ t v, exec i s = .next t ∧ t.rspPort = s.rspPort ++ [⟨0x00, v⟩] := by
  obtain ⟨t, ht, hshape⟩ := exec_shape i s
  cases hshape with
  | seeded hi a ha hall => exact ⟨_, 0, ht, by simp⟩
  | emptySeed hi => exact (hkey hi).elim
  | notSeeded hi hs => exact (hseeded hi hs).elim
  | twisted hi hs he => exact ⟨_, temper (readWord (twistWords s.state) 0), ht, by simp⟩
  | drawn hi hlt => exact ⟨_, temper (readWord s.state s.index.toNat hlt), ht, by simp⟩

/-- A whole command whose checks fail: its words are taken, the response goes out, nothing else changes (R88). -/
theorem step_of_error {s : State} {h : Word} {ws : List Word} (hr : s.rst = false) (hc : s.cmdPort = h :: ws)
    (hl : h.toNat % 2 ^ 32 ≤ ws.length) (he : verdictStatus s.index (decodeHeader h) ≠ .ok) :
    step s = .next
      (raiseError (verdictStatus s.index (decodeHeader h)) h (setCmdPort (ws.drop (h.toNat % 2 ^ 32)) s)) := by
  have hd := decode_of_le hl
  rw [← hc] at hd
  cases hv : decodeHeader h with
  | seedDefault | seedScalar => exact (he (by rw [hv, verdictStatus])).elim
  | illegal why =>
    simp only [decodeFrame, hv] at hd
    exact step_of_illegal hr hd
  | seedArray len =>
    obtain rfl : len = 0 := by
      by_contra hne
      exact he (by rw [hv, verdictStatus, if_neg hne])
    obtain rfl : h = 0x0300000000000000 := (decodeHeader_eq_iff rfl h).mp hv
    simp only [decodeFrame, hv] at hd
    exact (step_of_command hr hd).trans (exec_seedArray_nil _)
  | next =>
    have hs : s.index = 313 := by
      by_contra hne
      exact he (by rw [hv, verdictStatus, if_neg hne])
    obtain rfl : h = 0x0400000000000000 := (decodeHeader_eq_iff rfl h).mp hv
    simp only [decodeFrame, hv] at hd
    rw [verdictStatus, if_pos hs]
    exact (step_of_command hr hd).trans (exec_next_of_unseeded _ hs)

/-- A whole command that passes every check answers `OK`. -/
theorem step_of_ok {s : State} {h : Word} {ws : List Word} (hr : s.rst = false) (hc : s.cmdPort = h :: ws)
    (hl : h.toNat % 2 ^ 32 ≤ ws.length) (hok : verdictStatus s.index (decodeHeader h) = .ok) :
    ∃ t v, step s = .next t ∧ t.rspPort = s.rspPort ++ [⟨0x00, v⟩] := by
  have hd := decode_of_le hl
  rw [← hc] at hd
  have hrun {i : Instr} (hi : decode s.cmdPort = .command i (ws.drop (h.toNat % 2 ^ 32))) (hkey : i ≠ .seedArray [])
      (hseeded : i = .next → s.index ≠ 313) : ∃ t v, step s = .next t ∧ t.rspPort = s.rspPort ++ [⟨0x00, v⟩] := by
    rw [step_of_command hr hi]
    exact exec_answersOk hkey hseeded
  cases hv : decodeHeader h with
  | illegal why => simp [hv, verdictStatus] at hok
  | seedDefault | seedScalar =>
    simp only [decodeFrame, hv] at hd
    exact hrun hd (by simp) (by simp)
  | seedArray len =>
    simp only [decodeFrame, hv] at hd
    refine hrun hd ?_ (by simp)
    have hlen : len ≠ 0 := by
      rintro rfl
      simp [hv, verdictStatus] at hok
    have hpos : h.toNat % 2 ^ 32 ≠ 0 := by
      rw [← lenField_toNat, (decodeHeader_eq_iff rfl h).mp hv, lenField_mkHeader]
      exact fun h0 => hlen (BitVec.eq_of_toNat_eq h0)
    rw [ne_eq, Instr.seedArray.injEq, ← List.length_eq_zero_iff, List.length_take]
    omega
  | next =>
    simp only [decodeFrame, hv] at hd
    refine hrun hd (by simp) fun _ hs => ?_
    simp [hv, verdictStatus, hs] at hok

/-- The block sends a response only when a whole command stands at its port (R45). -/
theorem whole_of_step_responds {s t : State} {r : Response} (hr : s.rst = false) (hstep : step s = .next t)
    (hrsp : t.rspPort = s.rspPort ++ [r]) : ∃ h ws, s.cmdPort = h :: ws ∧ h.toNat % 2 ^ 32 ≤ ws.length := by
  have hwhole : decode s.cmdPort ≠ .incomplete := by
    intro hd
    rw [step_of_incomplete hr hd] at hstep
    cases hstep
    simp at hrsp
  cases hc : s.cmdPort with
  | nil => exact (hwhole (by rw [hc]; rfl)).elim
  | cons h ws =>
    refine ⟨h, ws, rfl, Nat.le_of_not_lt fun hl => hwhole ?_⟩
    rw [hc, decode_of_lt hl]

/-! ## The statements on the errors -/

/-- Settles O15: the verdict on the header and the two checks after it are the checks of R87, and their status is the answer's. -/
theorem checksInOrderDecideTheResponse : Obligations.ChecksInOrderDecideTheResponse := by
  intro s h ws hr hc hl
  by_cases hok : verdictStatus s.index (decodeHeader h) = .ok
  · obtain ⟨t, v, ht, hrsp⟩ := step_of_ok hr hc hl hok
    have hcode : checkCode s.index h = 0x00 := by rw [← code_verdictStatus, hok, Status.code]
    exact ⟨t, _, ht, hrsp, fun hne => (hne rfl).elim, hcode.symm⟩
  · exact ⟨_, _, step_of_error hr hc hl hok, rfl, fun _ => rfl, code_verdictStatus s.index h⟩

/-- Settles O13: the ways of being illegal are the checks of R87 whose code is 0x03, so the step is an error's. -/
theorem illegalCommandIsAnsweredAndDiscarded : Obligations.IllegalCommandIsAnsweredAndDiscarded := by
  intro s h payload rest hr hc hlen hillegal
  have hcode : (verdictStatus s.index (decodeHeader h)).code = 0x03 :=
    (code_verdictStatus s.index h).trans (checkCode_of_illegal s.index hillegal)
  have hstatus : verdictStatus s.index (decodeHeader h) = .illegalCommand := Status.code_eq_three_iff.mp hcode
  rw [step_of_error hr hc (by simp [hlen]) (by simp [hstatus]), hstatus, ← hlen, List.drop_left]
  rfl

/-- Settles O16: a step that sends a response with an error's status is neither a wait nor a success. -/
theorem errorsChangeNothingElse : Obligations.ErrorsChangeNothingElse := by
  intro s t r hr hstep hrsp hne
  obtain ⟨h, ws, hc, hl⟩ := whole_of_step_responds hr hstep hrsp
  by_cases hok : verdictStatus s.index (decodeHeader h) = .ok
  · obtain ⟨t', v, ht, hrsp'⟩ := step_of_ok hr hc hl hok
    obtain rfl : t = t' := Host.Outcome.next.inj (hstep.symm.trans ht)
    obtain rfl : r = ⟨0x00, v⟩ := by simpa using hrsp.symm.trans hrsp'
    exact (hne rfl).elim
  · obtain rfl := Host.Outcome.next.inj (hstep.symm.trans (step_of_error hr hc hl hok))
    obtain rfl : r = ⟨(verdictStatus s.index (decodeHeader h)).code, h⟩ := by simpa using hrsp.symm
    exact ⟨Status.code_of_ne_ok hok, ws, hc, rfl⟩

/-- Settles O24: the whole step of `SEED_ARRAY` with no seed word, by the command and by its header. -/
theorem emptySeedIsRejected : Obligations.EmptySeedIsRejected := by
  refine ⟨exec_seedArray_nil, fun s rest hr hc => ?_⟩
  have hd : decodeHeader 0x0300000000000000 = .seedArray 0 := by decide
  have hstatus : verdictStatus s.index (decodeHeader 0x0300000000000000) = .invalidSeed := by
    rw [hd, verdictStatus, if_pos rfl]
  rw [step_of_error hr hc (Nat.zero_le _) (by rw [hstatus]; decide), hstatus]
  rfl

/-- Settles O33: the error of `NEXT`, and of all the shapes of a step only a seeding that succeeds moves `index` away from 313. -/
theorem unseededUntilASeedingCommandSucceeds : Obligations.UnseededUntilASeedingCommandSucceeds := by
  refine ⟨exec_next_of_unseeded, fun s t hs hstep hne => ?_⟩
  cases shape_of_step hstep with
  | reset hr => exact (hne rfl).elim
  | wait hr hd => exact (hne hs).elim
  | illegal hr why header rest hd => exact (hne hs).elim
  | command hr i rest hd t he hshape =>
    cases hshape with
    | seeded hi a ha hall => exact ⟨i, rest, hd, hi, rfl, rfl⟩
    | emptySeed hi => exact (hne hs).elim
    | notSeeded hi hu => exact (hne hs).elim
    | twisted hi hu hx => exact (hu hs).elim
    | drawn hi hlt =>
      rw [setCmdPort_index, hs] at hlt
      exact absurd hlt (by decide)

end Sys2Proof.Machine
end

section
namespace Sys2Proof

/-! ## The command words: decoding and encoding agree (R41, R43, R46) -/

theorem decode_eq_decodeFrame {ws : List Word} {f : Frame} (hf : frame ws = some f) : decode ws = decodeFrame f := by
  rw [decode, hf]

theorem frame_encode_append (i : Instr) (hwf : i.wellFormed = true) (rest : List Word) :
    frame (encode i ++ rest) = some ⟨headerOf i, payloadOf i, rest⟩ := by
  cases i with
  | seedDefault => exact Laws.Framing.seedDefault hwf rest
  | seedScalar seed => exact Laws.Framing.seedScalar seed hwf rest
  | seedArray key => exact Laws.Framing.seedArray key hwf rest
  | next => exact Laws.Framing.next hwf rest

/-- The header decoder's verdict on a command's own header word. -/
def verdictOf : Instr → HeaderVerdict
  | .seedDefault => .seedDefault
  | .seedScalar _ => .seedScalar
  | .seedArray key => .seedArray (BitVec.ofNat 32 key.length)
  | .next => .next

theorem header_verdictOf (i : Instr) : (verdictOf i).header = some (headerOf i) := by
  cases i <;> rfl

theorem decodeHeader_headerOf (i : Instr) : decodeHeader (headerOf i) = verdictOf i :=
  decodeHeader_of_header (header_verdictOf i)

/-- A command's own header and payload are decoded to the command, with the words behind them left over. -/
theorem decodeFrame_of_command (i : Instr) (rest : List Word) :
    decodeFrame ⟨headerOf i, payloadOf i, rest⟩ = .command i rest := by
  cases i with
  | seedDefault | seedScalar seed | seedArray key | next =>
    simp only [decodeFrame, decodeHeader_headerOf, verdictOf, payloadOf, scalarOperand, List.headD_cons]

/-- A frame that is decoded to a command holds the command's own header and payload; `LEN` bounds the key's length. -/
theorem eq_of_decodeFrame_eq_command {f : Frame} {i : Instr} {rest : List Word}
    (hlen : f.payload.length = (lenField f.header).toNat) (hd : decodeFrame f = .command i rest) :
    i.wellFormed = true ∧ f = ⟨headerOf i, payloadOf i, rest⟩ := by
  obtain ⟨h, payload, rest'⟩ := f
  have hword {w : Word} (hw : (decodeHeader h).header = some w) : h = w := (decodeHeader_eq_iff hw h).mp rfl
  simp only [decodeFrame] at hd hlen
  cases hv : decodeHeader h with
  | illegal why => simp [hv] at hd
  | seedDefault | next =>
    obtain ⟨rfl, rfl⟩ : _ = i ∧ rest' = rest := by simpa [hv] using hd
    obtain rfl := hword (by rw [hv, HeaderVerdict.header])
    obtain rfl : payload = [] := List.eq_nil_of_length_eq_zero (by simpa using hlen)
    exact ⟨rfl, rfl⟩
  | seedScalar =>
    obtain ⟨rfl, rfl⟩ : _ = i ∧ rest' = rest := by simpa [hv] using hd
    obtain rfl := hword (by rw [hv, HeaderVerdict.header])
    obtain ⟨seed, rfl⟩ : ∃ seed, payload = [seed] := List.length_eq_one_iff.mp (by simpa using hlen)
    exact ⟨rfl, rfl⟩
  | seedArray len =>
    obtain ⟨rfl, rfl⟩ : _ = i ∧ rest' = rest := by simpa [hv] using hd
    obtain rfl := hword (by rw [hv, HeaderVerdict.header])
    have hpayload : payload.length = len.toNat := by simpa using hlen
    have hkey : BitVec.ofNat 32 payload.length = len := by rw [hpayload, BitVec.ofNat_toNat, BitVec.setWidth_eq]
    exact ⟨by simp [Instr.wellFormed, hpayload, len.isLt], by rw [headerOf, hkey, payloadOf]⟩

/-- Settles O10: a well-formed command is framed as its own words, and its own words are decoded to it. -/
theorem decodeOfEncode : Obligations.DecodeOfEncode := by
  intro i rest hwf
  rw [decode_eq_decodeFrame (frame_encode_append i hwf rest), decodeFrame_of_command]

/-- Settles O11: only a frame is decoded to a command, and a frame is the words it was cut from. -/
theorem encodeOfDecode : Obligations.EncodeOfDecode := by
  intro ws rest i hd
  cases hf : frame ws with
  | none => simp [decode, hf] at hd
  | some f =>
    obtain ⟨hws, hlen⟩ := frame_eq_some hf
    rw [decode_eq_decodeFrame hf] at hd
    obtain ⟨hwf, rfl⟩ := eq_of_decodeFrame_eq_command hlen hd
    exact ⟨hwf, hws⟩

/-! ## Which headers are illegal, and words behind a whole command (R41, R49) -/

/-- What is decoded when more words follow: the same, and the further words are left over too. -/
def Decoded.appendRest (more : List Word) : Decoded → Decoded
  | .incomplete => .incomplete
  | .illegal why h rest => .illegal why h (rest ++ more)
  | .command i rest => .command i (rest ++ more)

theorem decodeFrame_appendRest (f : Frame) (more : List Word) :
    decodeFrame ⟨f.header, f.payload, f.rest ++ more⟩ = (decodeFrame f).appendRest more := by
  cases hv : decodeHeader f.header <;> simp only [decodeFrame, hv, Decoded.appendRest]

/-- Words behind a whole command are left over by the decoder (R41). -/
theorem decode_append {ws : List Word} (hwhole : decode ws ≠ .incomplete) (more : List Word) :
    decode (ws ++ more) = (decode ws).appendRest more := by
  cases hf : frame ws with
  | none => exact (hwhole (by rw [decode, hf])).elim
  | some f => rw [decode_eq_decodeFrame hf, decode_eq_decodeFrame (frame_append hf more), decodeFrame_appendRest]

/-- A whole command's decoding takes its header at least. -/
theorem length_rest_lt {ws rest : List Word} (hd : (∃ i, decode ws = .command i rest) ∨ ∃ why h, decode ws = .illegal why h rest) :
    rest.length < ws.length := by
  cases hf : frame ws with
  | none => simp [decode, hf] at hd
  | some f =>
    obtain ⟨hws, -⟩ := frame_eq_some hf
    rw [decode_eq_decodeFrame hf] at hd
    have hrest : rest = f.rest := by
      rcases hd with ⟨i, hd⟩ | ⟨why, h, hd⟩
      · exact rest_of_decodeFrame.2 hd
      · exact (rest_of_decodeFrame.1 hd).2
    rw [hws, hrest, List.length_cons, List.length_append]
    omega

/-- Settles O7, by running the decoder on the eight sequences. -/
theorem sampleWordsDecode : Obligations.SampleWordsDecode := by
  unfold Obligations.SampleWordsDecode
  decide

end Sys2Proof
end

section
namespace Sys2Proof.Machine

/-! ## The illegal headers and the framing of a step (R41, R45, R49) -/

theorem verdictStatus_eq_illegalCommand_iff (index : BitVec 9) (v : HeaderVerdict) :
    verdictStatus index v = .illegalCommand ↔ ∃ why, v = .illegal why := by
  cases v with
  | illegal why => simp [verdictStatus]
  | seedDefault | seedScalar => simp [verdictStatus]
  | seedArray len | next =>
    rw [verdictStatus]
    split_ifs <;> simp

/-- A header that passes the first four checks of R87 is not answered with their code. -/
theorem checkCode_ne_illegal (index : BitVec 9) {h : Word}
    (hlegal : ¬ (h.toNat / 2 ^ 56 ∉ [0x01, 0x02, 0x03, 0x04] ∨ h.toNat / 2 ^ 32 % 2 ^ 24 ≠ 0 ∨
      (h.toNat / 2 ^ 56 ∈ [0x01, 0x04] ∧ h.toNat % 2 ^ 32 ≠ 0) ∨ (h.toNat / 2 ^ 56 = 0x02 ∧ h.toNat % 2 ^ 32 ≠ 1))) :
    checkCode index h ≠ 0x03 := by
  rw [not_or, not_or, not_or] at hlegal
  obtain ⟨hopc, hrsv, hlen0, hlen1⟩ := hlegal
  rw [checkCode, if_neg hrsv, if_neg hopc, if_neg hlen0, if_neg hlen1]
  split_ifs <;> decide

/-- Settles O9: an illegal verdict is the status 0x03, and the first four checks of R87 are the ones with that code. -/
theorem illegalHeadersExactly : Obligations.IllegalHeadersExactly := by
  intro h
  rw [← verdictStatus_eq_illegalCommand_iff 0 (decodeHeader h), ← Status.code_eq_three_iff, code_verdictStatus]
  exact ⟨fun hcode => by_contra fun hlegal => checkCode_ne_illegal 0 hlegal hcode, checkCode_of_illegal 0⟩

/-- Settles O12. -/
theorem stepRunsTheDecodedCommand : Obligations.StepRunsTheDecodedCommand :=
  fun _ _ _ hr hd => step_of_command hr hd

/-- The step of a block at whose port a whole command was decoded takes the command's words and sends one response. -/
theorem step_of_decodeFrame {s : State} {f : Frame} (hr : s.rst = false) (hd : decode s.cmdPort = decodeFrame f) :
    ∃ t r, step s = .next t ∧ t.cmdPort = f.rest ∧ t.rspPort = s.rspPort ++ [r] ∧ t.rst = false := by
  cases hf : decodeFrame f with
  | incomplete => exact (decodeFrame_ne_incomplete f hf).elim
  | illegal why h rest =>
    obtain ⟨-, rfl⟩ := rest_of_decodeFrame.1 hf
    exact ⟨_, _, step_of_illegal hr (hd.trans hf), rfl, rfl, hr⟩
  | command i rest =>
    obtain rfl := rest_of_decodeFrame.2 hf
    obtain ⟨t, ht, -⟩ := exec_shape i (setCmdPort f.rest s)
    obtain ⟨hport, hrst, -, r, hrsp⟩ := exec_frame ht
    exact ⟨t, r, (step_of_command hr (hd.trans hf)).trans ht, hport, hrsp, hrst.trans hr⟩

/-- Settles O14: no word and too few words are no whole command, and enough words are one. -/
theorem everyWholeCommandGetsOneResponse : Obligations.EveryWholeCommandGetsOneResponse := by
  intro s hr
  refine ⟨fun hc => step_of_incomplete hr (by rw [hc]; rfl), fun h ws hc => ⟨fun hl => ?_, fun hl => ?_⟩⟩
  · exact step_of_incomplete hr (by rw [hc, decode_of_lt hl])
  · exact step_of_decodeFrame hr (by rw [hc, decode_of_le hl])

/-! ## Reset and safety (R23, R84, R86, R102) -/

theorem step_of_reset {s : State} (hr : s.rst = true) : step s = .next (takeReset s) := by
  rw [step, if_pos hr]

/-- Settles O1. -/
theorem resetLeavesUnseededIdleBlock : Obligations.ResetLeavesUnseededIdleBlock := ⟨rfl, rfl, rfl, rfl⟩

/-- Settles O2: the step takes the reset, which leaves the sentinel and empty ports. -/
theorem resetInputOverridesAllWork : Obligations.ResetInputOverridesAllWork :=
  fun s hr => ⟨takeReset s, step_of_reset hr, takeReset_index s, takeReset_cmdPort s, takeReset_rspPort s⟩

/-- Settles O17: each shape of a step is a next state. -/
theorem noStepStops : Obligations.NoStepStops := fun s => (step_shape s).imp fun _ => And.left

/-- Settles O20: the array of a seeding that succeeds is the same in every state. -/
theorem seedingForgetsHistory : Obligations.SeedingForgetsHistory := by
  intro i hi
  obtain ⟨a, -, hall⟩ := exec_seedsBlock hi
  exact ⟨a, fun s => (hall s).trans (congrArg _ (respondOk_seeded_eq a s))⟩

/-! ## The effect of a command depends on the array and on `index` alone (R39, R45) -/

/-- What a command leaves: an array, an `index` and one response more. Nothing else of the state is touched. -/
def answer (a : StateArray) (x : BitVec 9) (r : Response) (s : State) : State := sendResponse r (setIndex x (setWords a s))

theorem answer_eq (a : StateArray) (x : BitVec 9) (r : Response) (s : State) :
    answer a x r s = { s with state := a, index := x, rspPort := s.rspPort ++ [r] } := rfl

/-- The ports and the reset input have no influence on a command: in all states with one array and one `index` it leaves the same
array and `index` and sends the same response. -/
theorem exec_answer (i : Instr) (a : StateArray) (x : BitVec 9) :
    ∃ a' x' r, ∀ s : State, s.state = a → s.index = x → exec i s = .next (answer a' x' r s) := by
  by_cases hi : i.seedsBlock
  · obtain ⟨a', -, hall⟩ := exec_seedsBlock hi
    exact ⟨a', exhaustedIndex, ⟨0x00, 0⟩, fun s _ _ => hall s⟩
  · cases i with
    | seedDefault | seedScalar => exact (hi trivial).elim
    | seedArray key =>
      obtain rfl : key = [] := not_not.mp hi
      refine ⟨a, x, ⟨0x01, 0x0300000000000000⟩, ?_⟩
      rintro s rfl rfl
      exact exec_seedArray_nil s
    | next =>
      by_cases hu : x = 313
      · refine ⟨a, x, ⟨0x02, 0x0400000000000000⟩, ?_⟩
        rintro s rfl rfl
        exact exec_next_of_unseeded s hu
      · by_cases he : 312 ≤ x.toNat
        · refine ⟨twistWords a, 1, ⟨0x00, temper (readWord (twistWords a) 0)⟩, ?_⟩
          rintro s rfl rfl
          rw [answer_eq, exec_next_of_exhausted s hu he]
        · have hlt : x.toNat < 312 := by omega
          refine ⟨a, x + 1, ⟨0x00, temper (readWord a x.toNat hlt)⟩, ?_⟩
          rintro s rfl rfl
          exact exec_next_of_unread s hlt

/-- The same for a command that is known to answer `t`, in every state that differs from `s` at the ports only. -/
theorem answer_of_exec {i : Instr} {s t : State} (h : exec i s = .next t) :
    ∃ a x r, t = answer a x r s ∧ ∀ u : State, u.state = s.state → u.index = s.index → exec i u = .next (answer a x r u) := by
  obtain ⟨a, x, r, hall⟩ := exec_answer i s.state s.index
  exact ⟨a, x, r, Host.Outcome.next.inj (h.symm.trans (hall s rfl rfl)), hall⟩

/-- A command answers the same with other words at the command port, and leaves them there. -/
theorem exec_setCmdPort {i : Instr} {s t : State} (h : exec i s = .next t) (ws : List Word) :
    exec i (setCmdPort ws s) = .next (setCmdPort ws t) := by
  obtain ⟨a, x, r, rfl, hall⟩ := answer_of_exec h
  exact hall (setCmdPort ws s) rfl rfl

theorem hostSend_eq_setCmdPort (ws : List Word) (s : State) : hostSend ws s = setCmdPort (s.cmdPort ++ ws) s := rfl

/-- The response port left with the responses `rs`. -/
def setRspPort (rs : List Response) (s : State) : State := { s with rspPort := rs }

/-- A block with other responses at its port does the same and adds the same responses. -/
theorem step_setRspPort {s t : State} (hr : s.rst = false) (hstep : step s = .next t) :
    ∃ added, t.rspPort = s.rspPort ++ added ∧
      ∀ rs, step (setRspPort rs s) = .next (setRspPort (rs ++ added) t) := by
  cases shape_of_step hstep with
  | reset hr' => exact absurd (hr.symm.trans hr') (by decide)
  | wait _ hd =>
    refine ⟨[], (List.append_nil _).symm, fun rs => ?_⟩
    rw [List.append_nil]
    exact step_of_incomplete (s := setRspPort rs s) hr hd
  | illegal _ why h rest hd =>
    exact ⟨[⟨0x03, h⟩], rfl, fun rs => step_of_illegal (s := setRspPort rs s) hr hd⟩
  | command _ i rest hd t he _ =>
    obtain ⟨a, x, r, rfl, hall⟩ := answer_of_exec he
    exact ⟨[r], rfl, fun rs => (step_of_command (s := setRspPort rs s) hr hd).trans (hall _ rfl rfl)⟩

theorem hostTake_eq_some {s s' : State} {r : Response} (h : hostTake s = some (r, s')) :
    s.rspPort = r :: s'.rspPort ∧ s' = setRspPort s'.rspPort s := by
  cases hp : s.rspPort with
  | nil => simp [hostTake, hp] at h
  | cons r' rs =>
    obtain ⟨rfl, rfl⟩ : r' = r ∧ { s with rspPort := rs } = s' := by simpa [hostTake, hp] using h
    exact ⟨rfl, rfl⟩

theorem hostTake_of_cons {s : State} {r : Response} {rs : List Response} (h : s.rspPort = r :: rs) :
    hostTake s = some (r, setRspPort rs s) := by
  simp only [hostTake, h, setRspPort]

/-! ## The statements on the host's side of the ports -/

/-- Settles O3: the further words are left over by the decoder and reach neither an illegal command nor a legal one. -/
theorem laterWordsDoNotDisturbACommand : Obligations.LaterWordsDoNotDisturbACommand := by
  intro s ws hr hwhole
  have happend : decode (hostSend ws s).cmdPort = (decode s.cmdPort).appendRest ws := decode_append hwhole ws
  obtain ⟨t, ht, hshape⟩ := step_shape s
  refine ⟨t, ht, ?_⟩
  cases hshape with
  | reset hr' => exact absurd (hr.symm.trans hr') (by decide)
  | wait _ hd => exact (hwhole hd).elim
  | illegal _ why h rest hd =>
    rw [hd] at happend
    exact step_of_illegal (s := hostSend ws s) hr happend
  | command _ i rest hd t he _ =>
    rw [hd] at happend
    obtain ⟨hport, -⟩ := exec_frame he
    rw [hostSend_eq_setCmdPort ws t, hport]
    exact (step_of_command (s := hostSend ws s) hr happend).trans (exec_setCmdPort he (rest ++ ws))

/-- Settles O4: the step adds its responses behind the others, whatever the others are. -/
theorem takingResponsesDoesNotDisturbTheBlock : Obligations.TakingResponsesDoesNotDisturbTheBlock := by
  intro s s' r hr htake
  obtain ⟨hport, hs'⟩ := hostTake_eq_some htake
  obtain ⟨t, ht, -⟩ := step_shape s
  obtain ⟨added, hadded, hall⟩ := step_setRspPort hr ht
  have htPort : t.rspPort = r :: (s'.rspPort ++ added) := by rw [hadded, hport, List.cons_append]
  refine ⟨t, setRspPort (s'.rspPort ++ added) t, ht, ?_, hostTake_of_cons htPort, htPort⟩
  rw [hs']
  exact hall s'.rspPort

end Sys2Proof.Machine
end

section
namespace Sys2Proof.Machine

/-! ## Array seeding as one chain of mixed words (R59 to R64) -/

/-- The word that an iteration of the forward pass writes (R60). -/
def fwdWord (key : List Word) (p : FwdPass key.length) : Word :=
  have hi := p.i.property
  (readWord p.arr p.i.val ^^^ (fold62 (readWord p.arr (p.i.val - 1)) * multFwd)) + keyWord key p.j + zext64 p.j.val

/-- The word that an iteration of the reverse pass writes (R61). -/
def revWord (p : StateArray × StateCursor) : Word :=
  have hi := p.2.property
  (readWord p.1 p.2.val ^^^ (fold62 (readWord p.1 (p.2.val - 1)) * multRev)) - zext64 p.2.val

theorem mixFwdStep_eq_advanceI (key : List Word) (p : FwdPass key.length) :
    ((mixFwdStep key p).arr, (mixFwdStep key p).i) =
      advanceI (writeWord p.arr p.i.val (fwdWord key p) (by have := p.i.property; omega)) p.i := rfl

theorem mixFwdStep_j (key : List Word) (p : FwdPass key.length) : (mixFwdStep key p).j = advanceJ p.j := rfl

theorem mixRevStep_eq_advanceI (p : StateArray × StateCursor) :
    mixRevStep p = advanceI (writeWord p.1 p.2.val (revWord p) (by have := p.2.property; omega)) p.2 := rfl

theorem mixFwdLoop_succ (key : List Word) (hk : 0 < key.length) (n : Nat) (a : StateArray) :
    mixFwdLoop key hk (n + 1) a = mixFwdStep key (mixFwdLoop key hk n a) := rfl

theorem mixRevLoop_succ (i0 : StateCursor) (n : Nat) (a : StateArray) :
    mixRevLoop i0 (n + 1) a = mixRevStep (mixRevLoop i0 n a) := rfl

/-- Both cursors of the forward pass run round their cycles from the first place (R60). -/
theorem mixFwdLoop_cursors (key : List Word) (hk : 0 < key.length) (a : StateArray) (n : Nat) :
    (mixFwdLoop key hk n a).i.val = n % 311 + 1 ∧ (mixFwdLoop key hk n a).j.val = n % key.length := by
  induction n with
  | zero => exact ⟨rfl, (Nat.zero_mod _).symm⟩
  | succ n ih =>
    obtain ⟨hi, hj⟩ := ih
    have hstep : (mixFwdLoop key hk (n + 1) a).i.val = (mixFwdLoop key hk n a).i.val % 311 + 1 :=
      advanceI_cursor _ _
    refine ⟨?_, ?_⟩
    · rw [hstep, hi]
      omega
    · rw [mixFwdLoop_succ, mixFwdStep_j, advanceJ_val, hj, Nat.mod_add_mod]

/-- Settles O22: the cursors after `max(312, len)` iterations. -/
theorem forwardPassReturnsItsCursor : Obligations.ForwardPassReturnsItsCursor :=
  fun key hk a => mixFwdLoop_cursors key hk a (max 312 key.length)

/-- An array's words as a function of the index. -/
def wordAt (a : StateArray) (e : Nat) : Word := if h : e < 312 then readWord a e h else 0

theorem wordAt_of_lt (a : StateArray) (e : Nat) (h : e < 312) : wordAt a e = readWord a e h := dif_pos h

/-- Both passes as one process, by the number of iterations done: the forward ones and then the reverse ones, with the array and
the cursor that the passes hand on. -/
def mixState (key : List Word) (hk : 0 < key.length) (a : StateArray) (n : Nat) : StateArray × StateCursor :=
  if n ≤ max 312 key.length then ((mixFwdLoop key hk n a).arr, (mixFwdLoop key hk n a).i)
  else mixRevLoop (mixFwd key hk a).i (n - max 312 key.length) (mixFwd key hk a).arr

/-- The word that iteration `n` of this process writes, counted from 0. -/
def mixWord (key : List Word) (hk : 0 < key.length) (a : StateArray) (n : Nat) : Word :=
  if n < max 312 key.length then fwdWord key (mixFwdLoop key hk n a) else revWord (mixState key hk a n)

section
variable (key : List Word) (hk : 0 < key.length) (a : StateArray)

theorem mixState_of_le {n : Nat} (hn : n ≤ max 312 key.length) :
    mixState key hk a n = ((mixFwdLoop key hk n a).arr, (mixFwdLoop key hk n a).i) := if_pos hn

/-- The reverse pass starts at the state the forward pass returns. -/
theorem mixState_add (n : Nat) :
    mixState key hk a (max 312 key.length + n) = mixRevLoop (mixFwd key hk a).i n (mixFwd key hk a).arr := by
  cases n with
  | zero => exact mixState_of_le key hk a (Nat.le_refl _)
  | succ n => rw [mixState, if_neg (by omega), Nat.add_sub_cancel_left]

theorem mixState_zero : mixState key hk a 0 = (a, firstCursor) := mixState_of_le key hk a (Nat.zero_le _)

theorem mixState_start : (mixState key hk a 0).2.val = 1 := by
  rw [mixState_zero, firstCursor]

/-- Each iteration of either pass writes its word at the cursor and advances it. -/
theorem mixState_mixes (N : Nat) :
    MixesUpTo N (fun n => (mixState key hk a n).1) (fun n => (mixState key hk a n).2) (mixWord key hk a) := by
  intro n _
  by_cases hn : n < max 312 key.length
  · simp only [mixWord, if_pos hn, mixState_of_le key hk a hn.le, mixState_of_le key hk a hn]
    exact (mixFwdStep_eq_advanceI key (mixFwdLoop key hk n a)).symm
  · obtain ⟨m, rfl⟩ := Nat.exists_eq_add_of_le (Nat.not_lt.mp hn)
    simp only [mixWord, if_neg hn, Nat.add_assoc, mixState_add, mixRevLoop_succ]
    exact (mixRevStep_eq_advanceI _).symm

/-- The chain of words: word `k` is written by iteration `k` counted from 1, and word 0 is the array's first. -/
def chainWord : Nat → Word
  | 0 => readWord a 0
  | k + 1 => mixWord key hk a k

theorem chainWord_succ (n : Nat) : chainWord key hk a (n + 1) = mixWord key hk a n := rfl

theorem mixState_cursor (n : Nat) : (mixState key hk a n).2.val = n % 311 + 1 :=
  ((mixState_mixes key hk a n).words (mixState_start key hk a) n (Nat.le_refl n)).1

/-- Below the cursor stands the last word of the chain. -/
theorem readWord_mixState_below (n : Nat) :
    readWord (mixState key hk a n).1 ((mixState key hk a n).2.val - 1) (by have := (mixState key hk a n).2.property; omega) =
      chainWord key hk a n := by
  cases n with
  | zero => simp only [mixState_zero, firstCursor, chainWord]
  | succ n =>
    exact ((mixState_mixes key hk a (n + 1)).words (mixState_start key hk a) (n + 1) (Nat.le_refl _)).2.1 n rfl

/-- The last 311 words of the chain stand in the array, each at its index. -/
theorem readWord_mixState (n k : Nat) (h1 : 1 ≤ k) (h2 : k ≤ n) (h3 : n < k + 311) :
    readWord (mixState key hk a n).1 ((k - 1) % 311 + 1) (by omega) = chainWord key hk a k := by
  obtain ⟨k, rfl⟩ := Nat.exists_eq_add_of_le' h1
  exact ((mixState_mixes key hk a n).words (mixState_start key hk a) n (Nat.le_refl n)).2.2.1 (k + 1) h1 h2 h3

/-- At the cursor stands the chain's word of one round before, or the start's word in the first round. -/
theorem readWord_mixState_cursor (n : Nat) :
    readWord (mixState key hk a n).1 (mixState key hk a n).2.val (by have := (mixState key hk a n).2.property; omega) =
      if n + 1 ≤ 311 then wordAt a (n + 1) else chainWord key hk a (n + 1 - 311) := by
  have hcursor := mixState_cursor key hk a n
  split
  next h =>
    have hkept := ((mixState_mixes key hk a n).words (mixState_start key hk a) n (Nat.le_refl n)).2.2.2 (n + 1) (by omega)
    simp only [mixState_zero] at hkept
    simp only [hcursor, Nat.mod_eq_of_lt h, wordAt_of_lt a (n + 1) (by omega)]
    exact hkept
  next h =>
    have hround := readWord_mixState key hk a n (n + 1 - 311) (by omega) (by omega) (by omega)
    have hindex : (n + 1 - 311 - 1) % 311 + 1 = (mixState key hk a n).2.val := by omega
    simp only [hindex] at hround
    exact hround

/-- The recurrence of the forward pass (R60). -/
theorem chainWord_fwd (n : Nat) (hn : n < max 312 key.length) :
    chainWord key hk a (n + 1) =
      ((if n + 1 ≤ 311 then wordAt a (n + 1) else chainWord key hk a (n + 1 - 311)) ^^^
          (fold62 (chainWord key hk a n) * multFwd))
        + key[n % key.length]'(Nat.mod_lt _ hk) + zext64 (n % key.length) := by
  rw [← readWord_mixState_cursor key hk a n, ← readWord_mixState_below key hk a n, chainWord_succ, mixWord, if_pos hn]
  simp only [fwdWord, mixState_of_le key hk a hn.le, keyWord, Fin.getElem_fin, (mixFwdLoop_cursors key hk a n).2]

/-- The recurrence of the reverse pass (R61). -/
theorem chainWord_rev (n : Nat) (hn : max 312 key.length ≤ n) :
    chainWord key hk a (n + 1) =
      (chainWord key hk a (n + 1 - 311) ^^^ (fold62 (chainWord key hk a n) * multRev)) - zext64 (n % 311 + 1) := by
  have hround := readWord_mixState_cursor key hk a n
  rw [if_neg (by omega)] at hround
  rw [← hround, ← readWord_mixState_below key hk a n, ← mixState_cursor key hk a n, chainWord_succ, mixWord,
    if_neg (Nat.not_lt.mpr hn), revWord]

/-- What both passes and `FINALIZE` leave above word 0: the last 311 words of the chain (R63). -/
theorem readWord_seedArrayWords (k : Nat) (h1 : max 312 key.length < k) (h2 : k ≤ max 312 key.length + 311) :
    readWord (seedArrayWords key hk a) ((k - 1) % 311 + 1) (by omega) =
      chainWord key hk (initScalarWords baseSeed a) k := by
  rw [← readWord_mixState key hk _ (max 312 key.length + 311) k (by omega) h2 (by omega), mixState_add, seedArrayWords,
    readWord_finalize, if_neg (by omega), mixRev]

end

/-- Settles O25: the two passes are one process on one array, whose words follow the recurrences of R60 and R61. -/
theorem arraySeedingIsOneMixingChain : Obligations.ArraySeedingIsOneMixingChain := by
  intro key hne s
  have hk : 0 < key.length := List.length_pos_iff.mpr hne
  obtain ⟨hZero, hRecurrence⟩ := initScalarWords_spec baseSeed s.state
  refine ⟨seedArrayWords key hk s.state, wordAt (initScalarWords baseSeed s.state),
    chainWord key hk (initScalarWords baseSeed s.state), ?_, ?_, fun i h1 h2 => ?_, ?_, fun k h1 h2 => ?_, fun k h1 h2 => ?_, ?_,
    fun k h1 h2 => ?_⟩
  · rw [exec_seedArray_of_pos key hk s, initScalar, setWords_setIndex, setWords_setWords, respondOk_seeded_eq]
  · rw [wordAt_of_lt _ 0 (by omega), hZero, baseSeed]
  · rw [wordAt_of_lt _ i (by omega), wordAt_of_lt _ (i - 1) (by omega)]
    exact hRecurrence i ⟨h1, h2⟩
  · rw [wordAt_of_lt _ 0 (by omega), chainWord]
  · obtain ⟨n, rfl⟩ := Nat.exists_eq_add_of_le' h1
    exact chainWord_fwd key hk _ n h2
  · obtain ⟨n, rfl⟩ := Nat.exists_eq_add_of_le' (show 1 ≤ k by omega)
    exact chainWord_rev key hk _ n (by omega)
  · rw [readWord_seedArrayWords_zero, topWord]
  · exact readWord_seedArrayWords key hk s.state k h1 h2

end Sys2Proof.Machine
end

section
namespace Sys2Proof.Machine

/-! ## What the twist reads (R66, R72) -/

/-- `COMBINE` uses no bit below 31 of its first word (R66). -/
theorem combine_eq_of_shift_eq {u v : Word} (h : u >>> 31 = v >>> 31) (l : Word) : combine u l = combine v l := by
  apply BitVec.eq_of_getLsbD_eq
  intro k hk
  rw [getLsbD_combine u l k hk, getLsbD_combine v l k hk]
  split
  next => rfl
  next hhigh =>
    have hbit := congrArg (fun w => w.getLsbD (k - 31)) h
    simpa only [BitVec.getLsbD_ushiftRight, show 31 + (k - 31) = k by omega] using hbit

/-- Settles O29: word 0 enters a step as the first word of `COMBINE` only, or as the new word 0. -/
theorem twistIgnoresLowBitsOfWordZero : Obligations.TwistIgnoresLowBitsOfWordZero := by
  intro a b hzero habove
  have hcombine (e : Nat) (he : e ≤ 311) (l : Word) : combine (readWord a e) l = combine (readWord b e) l := by
    by_cases h0 : e = 0
    · subst h0
      exact combine_eq_of_shift_eq hzero l
    · rw [habove e (by omega)]
  have hlow (e : Nat) (he : e ≤ 155) : readWord (twistWords a) e = readWord (twistWords b) e := by
    rw [readWord_twistWords_low a e he, readWord_twistWords_low b e he, hcombine e (by omega), habove (e + 1) (by omega),
      habove (e + 156) (by omega)]
  refine eq_of_readWord_eq fun e he => ?_
  obtain h | h | rfl : e ≤ 155 ∨ (156 ≤ e ∧ e ≤ 310) ∨ e = 311 := by omega
  · exact hlow e h
  · rw [readWord_twistWords_high a e h, readWord_twistWords_high b e h, hcombine e (by omega), habove (e + 1) (by omega),
      hlow (e - 156) (by omega)]
  · rw [readWord_twistWords_last, readWord_twistWords_last, hcombine 311 (by omega), hlow 0 (by omega), hlow 155 (by omega)]

theorem twistWord_combine_zero : twistWord (combine 0 0) 0 = 0 := by decide

/-- Settles O30, range by range: each new word comes from words that are 0. -/
theorem twistKeepsTheZeroArray : Obligations.TwistKeepsTheZeroArray := by
  intro a hzero
  have hlow (e : Nat) (he : e ≤ 155) : readWord (twistWords a) e = 0 := by
    rw [readWord_twistWords_low a e he, hzero, hzero, hzero, twistWord_combine_zero]
  intro e he
  obtain h | h | rfl : e ≤ 155 ∨ (156 ≤ e ∧ e ≤ 310) ∨ e = 311 := by omega
  · exact hlow e h
  · rw [readWord_twistWords_high a e h, hzero, hzero, hlow (e - 156) (by omega), twistWord_combine_zero]
  · rw [readWord_twistWords_last, hzero, hlow 0 (by omega), hlow 155 (by omega), twistWord_combine_zero]

/-! ## The place in the output sequence (R77) -/

theorem placeAfter_toNat (n : Nat) : (placeAfter n).toNat = (n + 311) % 312 + 1 := by
  rw [placeAfter, BitVec.toNat_ofNat]
  omega

theorem placeAfter_ne_sentinel (n : Nat) : placeAfter n ≠ 313 := by
  intro h
  have hn := placeAfter_toNat n
  rw [h] at hn
  have h313 : (313 : BitVec 9).toNat = 313 := rfl
  omega

/-- At a period boundary the buffer is exhausted. -/
theorem placeAfter_of_boundary {n : Nat} (h : n % 312 = 0) : placeAfter n = 312 := by
  have hplace : (n + 311) % 312 + 1 = 312 := by omega
  rw [placeAfter, hplace]
  rfl

theorem placeAfter_succ_of_boundary {n : Nat} (h : n % 312 = 0) : placeAfter (n + 1) = 1 := by
  have hplace : (n + 1 + 311) % 312 + 1 = 1 := by omega
  rw [placeAfter, hplace]
  rfl

theorem twistsAfter_succ_of_boundary {n : Nat} (h : n % 312 = 0) : twistsAfter (n + 1) = twistsAfter n + 1 := by
  rw [twistsAfter, twistsAfter]
  omega

/-- Inside a period the next word is the one at `n mod 312`. -/
theorem placeAfter_toNat_of_inside {n : Nat} (h : n % 312 ≠ 0) : (placeAfter n).toNat = n % 312 := by
  rw [placeAfter_toNat]
  omega

theorem placeAfter_succ_of_inside {n : Nat} (h : n % 312 ≠ 0) : placeAfter (n + 1) = placeAfter n + 1 := by
  apply BitVec.eq_of_toNat_eq
  have hone : (1 : BitVec 9).toNat = 1 := rfl
  rw [BitVec.toNat_add, placeAfter_toNat, placeAfter_toNat, hone]
  omega

theorem twistsAfter_succ_of_inside {n : Nat} (h : n % 312 ≠ 0) : twistsAfter (n + 1) = twistsAfter n := by
  rw [twistsAfter, twistsAfter]
  omega

theorem twistsAfter_succ (n : Nat) : twistsAfter (n + 1) = n / 312 + 1 := by
  rw [twistsAfter]
  omega

/-- The response of draw number `n` (from 0) after a seeding that left the array `a` (R77). -/
def drawnResponse (a : StateArray) (n : Nat) : Response :=
  ⟨0x00, temper (readWord (twistWords^[n / 312 + 1] a) (n % 312) (Nat.mod_lt _ (by decide)))⟩

/-- A draw moves a block from place `n` of its sequence to place `n + 1`: at a period boundary by a twist, inside a period by the
next word (R75, R77). -/
theorem exec_next_of_place {s : State} {a : StateArray} {n : Nat} (hindex : s.index = placeAfter n)
    (hstate : s.state = twistWords^[twistsAfter n] a) :
    exec .next s = .next { s with
      state := twistWords^[twistsAfter (n + 1)] a, index := placeAfter (n + 1), rspPort := s.rspPort ++ [drawnResponse a n] } := by
  by_cases hn : n % 312 = 0
  · have htwisted : twistWords s.state = twistWords^[n / 312 + 1] a := by
      rw [hstate, ← twistsAfter_succ n, twistsAfter_succ_of_boundary hn, Function.iterate_succ_apply']
    have hexhausted : 312 ≤ s.index.toNat := by
      rw [hindex, placeAfter_of_boundary hn]
      decide
    rw [exec_next_of_exhausted s (hindex ▸ placeAfter_ne_sentinel n) hexhausted, htwisted, twistsAfter_succ,
      placeAfter_succ_of_boundary hn]
    simp only [drawnResponse, hn]
  · have hplace : s.index.toNat = n % 312 := by rw [hindex, placeAfter_toNat_of_inside hn]
    have hkept : s.state = twistWords^[n / 312 + 1] a := by
      rw [hstate, ← twistsAfter_succ n, twistsAfter_succ_of_inside hn]
    rw [exec_next_of_unread s (by omega), twistsAfter_succ, placeAfter_succ_of_inside hn, ← hindex, ← hkept]
    simp only [drawnResponse, hplace, hkept]

/-! ## Commands executed one after another (R45) -/

theorem execAll_cons {i : Instr} {s t : State} (is : List Instr) (h : exec i s = .next t) : execAll (i :: is) s = execAll is t := by
  rw [execAll, h]

theorem execAll_append {is js : List Instr} {s t : State} (h : execAll is s = .next t) : execAll (is ++ js) s = execAll js t := by
  induction is generalizing s with
  | nil => rw [List.nil_append, Host.Outcome.next.inj h]
  | cons i is ih =>
    obtain ⟨u, hu, -⟩ := exec_shape i s
    rw [List.cons_append, execAll_cons _ hu]
    rw [execAll_cons _ hu] at h
    exact ih h

/-- `n` draws from a fresh buffer take a block from place 0 of its sequence to place `n` (R77). -/
theorem execAll_draws (n : Nat) (s : State) (hs : s.index = placeAfter 0) :
    execAll (List.replicate n .next) s = .next { s with
      state := twistWords^[twistsAfter n] s.state
      index := placeAfter n
      rspPort := s.rspPort ++ (List.range n).map (drawnResponse s.state) } := by
  induction n with
  | zero =>
    rw [← hs, List.range_zero, List.map_nil, List.append_nil]
    rfl
  | succ n ih =>
    rw [List.replicate_succ', execAll_append ih, execAll_cons [] (exec_next_of_place rfl rfl), List.range_succ, List.map_append,
      ← List.append_assoc]
    rfl

/-- Settles O34: an exhausted buffer is place 0 of a sequence, and each draw moves one place on. -/
theorem periodBoundary : Obligations.PeriodBoundary :=
  fun n s hs => execAll_draws n s hs

end Sys2Proof.Machine
end

section
namespace Sys2Proof.Machine

/-! ## Invariants of every step (R13, R16, R18, R44, R76, R77) -/

theorem Status.code_le (e : Status) : e.code ≤ 3 := by
  cases e <;> decide

/-- The response a command sends has a status that some error or success sends (R44). -/
theorem ExecShape.status_le {i : Instr} {s t : State} (h : ExecShape i s t) :
    ∃ r : Response, t.rspPort = s.rspPort ++ [r] ∧ r.status ≤ 3 := by
  cases h with
  | seeded => exact ⟨⟨0x00, 0⟩, by simp, Status.code_le .ok⟩
  | twisted => exact ⟨⟨0x00, temper (readWord (twistWords s.state) 0)⟩, by simp, Status.code_le .ok⟩
  | drawn _ hlt => exact ⟨⟨0x00, temper (readWord s.state s.index.toNat hlt)⟩, by simp, Status.code_le .ok⟩
  | emptySeed => exact ⟨_, raiseError_rspPort _ _ _, Status.code_le .invalidSeed⟩
  | notSeeded => exact ⟨_, raiseError_rspPort _ _ _, Status.code_le .notSeeded⟩

/-- A command leaves `index` alone, at 312, at 1, or one place on. -/
theorem ExecShape.index_cases {i : Instr} {s t : State} (h : ExecShape i s t) :
    t.index = s.index ∨ (i.seedsBlock ∧ t.index = 312) ∨
      (i = .next ∧ s.index ≠ 313 ∧ t.index = if 312 ≤ s.index.toNat then 1 else s.index + 1) := by
  cases h with
  | seeded hi => exact .inr (.inl ⟨hi, rfl⟩)
  | emptySeed | notSeeded => exact .inl rfl
  | twisted hi hs he => exact .inr (.inr ⟨hi, hs, (if_pos he).symm⟩)
  | drawn hi hlt =>
    refine .inr (.inr ⟨hi, fun hs => ?_, (if_neg (Nat.not_le.mpr hlt)).symm⟩)
    rw [hs] at hlt
    exact absurd hlt (by decide)

/-- A command leaves the array alone, seeds it, or twists it. -/
theorem ExecShape.state_cases {i : Instr} {s t : State} (h : ExecShape i s t) :
    t.state = s.state ∨ i.seedsBlock ∨
      (i = .next ∧ s.index ≠ 313 ∧ 312 ≤ s.index.toNat ∧ t.state = twistWords s.state) := by
  cases h with
  | seeded hi => exact .inr (.inl hi)
  | emptySeed | notSeeded | drawn => exact .inl rfl
  | twisted hi hs he => exact .inr (.inr ⟨hi, hs, he, rfl⟩)

/-- Settles O35, from the ways a command moves `index`. -/
theorem waysIndexChanges : Obligations.WaysIndexChanges := by
  intro s t hstep hne
  cases shape_of_step hstep with
  | reset hr => exact .inl ⟨hr, rfl⟩
  | wait | illegal => exact (hne rfl).elim
  | command hr i rest hd t _ hshape =>
    rcases hshape.index_cases with hkept | hmoved
    · exact (hne hkept).elim
    · exact .inr ⟨hr, i, rest, hd, hmoved⟩

/-- Settles O36, from the ways a command writes the array. -/
theorem whatWritesTheArray : Obligations.WhatWritesTheArray := by
  intro s t hstep hne
  cases shape_of_step hstep with
  | reset hr => exact .inl hr
  | wait | illegal => exact (hne rfl).elim
  | command hr i rest hd t _ hshape =>
    rcases hshape.state_cases with hkept | hwritten
    · exact (hne hkept).elim
    · exact .inr ⟨i, rest, hd, hwritten⟩

/-- Settles O37: of the ways `index` changes (O35) only reset ends at 313. -/
theorem onlyResetUnseeds : Obligations.OnlyResetUnseeds := by
  intro s t hs hstep ht
  rcases waysIndexChanges s t hstep (fun heq => hs (heq ▸ ht)) with ⟨hr, -⟩ | ⟨-, i, rest, -, ⟨-, hseeded⟩ | ⟨-, -, hdrawn⟩⟩
  · exact hr
  · exact absurd (ht.symm.trans hseeded) (by decide)
  · rw [ht] at hdrawn
    split_ifs at hdrawn with he
    · exact absurd hdrawn (by decide)
    · have hadd : 313 = (s.index.toNat + 1) % 512 := congrArg BitVec.toNat hdrawn
      omega

/-- The legal values of `index` stay legal in each way a command moves it. -/
theorem ExecShape.index_legal {i : Instr} {s t : State} (h : ExecShape i s t) (hpos : 1 ≤ s.index) (hle : s.index ≤ 313) :
    1 ≤ t.index ∧ t.index ≤ 313 := by
  rcases h.index_cases with hkept | ⟨-, hseeded⟩ | ⟨-, -, hdrawn⟩
  · exact hkept ▸ ⟨hpos, hle⟩
  · rw [hseeded]
    decide
  · rw [hdrawn]
    split_ifs with he
    · decide
    · constructor <;> bv_omega

/-- One more response with a legal status keeps the port legal. -/
theorem statuses_append {rs : List Response} {r : Response} (h : ∀ q ∈ rs, q.status ≤ 3) (hr : r.status ≤ 3) :
    ∀ q ∈ rs ++ [r], q.status ≤ 3 := by
  intro q hq
  rcases List.mem_append.mp hq with hold | hnew
  · exact h q hold
  · exact List.mem_singleton.mp hnew ▸ hr

/-- Settles O41: reset leaves 313 and an empty port; an illegal command sends 0x03; a command keeps `index` legal. -/
theorem stepKeepsLegalValues : Obligations.StepKeepsLegalValues := by
  intro s t hlegal hstep
  obtain ⟨hpos, hle, hstatuses⟩ := hlegal
  cases shape_of_step hstep with
  | reset => exact ⟨by rw [takeReset_index]; decide, by rw [takeReset_index]; decide, by simp⟩
  | wait => exact ⟨hpos, hle, hstatuses⟩
  | illegal => exact ⟨hpos, hle, statuses_append hstatuses (Status.code_le .illegalCommand)⟩
  | command _ i rest _ t _ hshape =>
    obtain ⟨hpos', hle'⟩ := hshape.index_legal hpos hle
    obtain ⟨r, hrsp, hr⟩ := hshape.status_le
    exact ⟨hpos', hle', hrsp ▸ statuses_append hstatuses hr⟩

/-- A fresh seeding is place 0 of its sequence. -/
theorem onSequence_of_fresh {s : State} (hfresh : FreshlySeeded s.state) (hindex : s.index = 312) : OnSequence s :=
  .inr ⟨s.state, 0, hfresh, hindex, rfl⟩

/-- `NEXT` keeps an unseeded block unseeded, and moves a seeded one to the next place of its sequence. -/
theorem onSequence_exec_next {s t : State} (hseq : OnSequence s) (hexec : exec .next s = .next t) : OnSequence t := by
  rcases hseq with hunseeded | ⟨a, n, hfresh, hindex, hstate⟩
  · obtain rfl := Host.Outcome.next.inj (hexec.symm.trans (exec_next_of_unseeded s hunseeded))
    exact .inl hunseeded
  · obtain rfl := Host.Outcome.next.inj (hexec.symm.trans (exec_next_of_place hindex hstate))
    exact .inr ⟨a, n + 1, hfresh, rfl, rfl⟩

/-- Settles O42: a seeding starts a sequence, a draw moves along it, and nothing else but reset touches the array or `index`. -/
theorem stepKeepsPlaceInSequence : Obligations.StepKeepsPlaceInSequence := by
  intro s t hseq hstep
  cases shape_of_step hstep with
  | reset => exact .inl rfl
  | wait | illegal => exact hseq
  | command _ i rest _ t hexec hshape =>
    cases hshape with
    | seeded _ _ hfresh => exact onSequence_of_fresh hfresh rfl
    | emptySeed => exact hseq
    | notSeeded hi | twisted hi | drawn hi =>
      rw [hi] at hexec
      exact onSequence_exec_next (s := setCmdPort rest s) hseq hexec

/-- Settles O43: the reset state is unseeded, and its response port is empty. -/
theorem resetMeetsInvariants : Obligations.ResetMeetsInvariants :=
  ⟨⟨by decide, by decide, fun _ hr => absurd hr List.not_mem_nil⟩, .inl rfl⟩

/-! ## Runs of many steps (R45, R54, R78) -/

/-- The step of a block whose port holds a well-formed command's words runs the command, and leaves the words behind it. -/
theorem step_of_encode {i : Instr} {s : State} {more : List Word} (hr : s.rst = false) (hwf : i.wellFormed = true)
    (hport : s.cmdPort = encode i ++ more) : step s = exec i (setCmdPort more s) :=
  step_of_command hr (by rw [hport]; exact decodeOfEncode i more hwf)

theorem setCmdPort_self {ws : List Word} {s : State} (h : s.cmdPort = ws) : setCmdPort ws s = s := by
  rw [← h]
  rfl

/-- Settles O38, by induction over the commands: a command's step leaves the words of the others, and what it does is the same with
the others' words at the port and without. -/
theorem runExecutesCommandsInOrder : Obligations.RunExecutesCommandsInOrder := by
  intro cs
  induction cs with
  | nil =>
    intro s rest hr _ hport
    have hrest : s.cmdPort = rest := hport
    exact ⟨s, [], rfl, congrArg _ (setCmdPort_self hrest), hrest, (List.append_nil _).symm, rfl, fun h0 => ⟨hrest.trans h0, hr⟩⟩
  | cons i cs ih =>
    intro s rest hr hwf hport
    obtain ⟨u, hu, -⟩ := exec_shape i (setCmdPort (cs.flatMap encode ++ rest) s)
    obtain ⟨huPort, huRst, -, r, huRsp⟩ := exec_frame hu
    have hstep : step s = .next u :=
      (step_of_encode hr (hwf i List.mem_cons_self) (by rw [hport, List.flatMap_cons, List.append_assoc])).trans hu
    have hexec : exec i (setCmdPort rest s) = .next (setCmdPort rest u) := exec_setCmdPort hu rest
    obtain ⟨t, rs, hrun, hall, htPort, htRsp, hlen, hcomplete⟩ :=
      ih u rest (huRst.trans hr) (fun j hj => hwf j (List.mem_cons_of_mem i hj)) huPort
    refine ⟨t, r :: rs, (run_of_step hstep).trans hrun, (execAll_cons cs hexec).trans hall, htPort, ?_, by simp [hlen], hcomplete⟩
    rw [htRsp, huRsp, List.append_assoc]
    rfl

/-- A block that does not wait gets rid of at least one word, and the reset input stays released. -/
theorem step_shortens {s : State} (hr : s.rst = false) (hwhole : decode s.cmdPort ≠ .incomplete) :
    ∃ t, step s = .next t ∧ t.rst = false ∧ t.cmdPort.length < s.cmdPort.length := by
  obtain ⟨t, ht, hshape⟩ := step_shape s
  refine ⟨t, ht, ?_⟩
  cases hshape with
  | reset hr' => exact absurd (hr.symm.trans hr') (by decide)
  | wait _ hd => exact (hwhole hd).elim
  | illegal _ why h rest hd => exact ⟨hr, length_rest_lt (.inr ⟨why, h, hd⟩)⟩
  | command _ i rest hd t hexec _ =>
    obtain ⟨hport, hrst, -⟩ := exec_frame hexec
    exact ⟨hrst.trans hr, hport ▸ length_rest_lt (.inl ⟨i, hd⟩)⟩

/-- Settles O39, by induction on the number of words: a block that does not wait yet has fewer of them after its step. -/
theorem everyWordSequenceIsWorkedOff : Obligations.EveryWordSequenceIsWorkedOff := by
  intro s
  induction hlen : s.cmdPort.length using Nat.strong_induction_on generalizing s with
  | h m ih =>
    intro hr
    by_cases hwhole : decode s.cmdPort = .incomplete
    · exact ⟨0, s, Nat.zero_le _, rfl, hwhole, step_of_incomplete hr hwhole⟩
    · obtain ⟨u, hu, hur, hshort⟩ := step_shortens hr hwhole
      obtain ⟨n, t, hn, hrun, hd, hwait⟩ := ih u.cmdPort.length (hlen ▸ hshort) u rfl hur
      exact ⟨n + 1, t, by omega, (run_of_step hu).trans hrun, hd, hwait⟩

/-! ## What no host can tell apart (R15, R24, R78) -/

/-- In blocks that no host can tell apart a command does the same: with one array because it does the same in all states with one
array and one `index`, and unseeded because a seeding forgets the array and an error does not read it. -/
theorem exec_alike (i : Instr) {s t : State} (h : Alike s t) :
    ∃ s' t', exec i s = .next s' ∧ exec i t = .next t' ∧ Alike s' t' := by
  obtain ⟨hindex, hcmd, hrsp, hrst, hstate⟩ := h
  have hrspAdd (r : Response) : s.rspPort ++ [r] = t.rspPort ++ [r] := by rw [hrsp]
  by_cases hu : s.index = 313
  · by_cases hi : i.seedsBlock
    · obtain ⟨a, -, hall⟩ := exec_seedsBlock hi
      exact ⟨_, _, hall s, hall t, rfl, hcmd, hrspAdd _, hrst, fun _ => rfl⟩
    · cases i with
      | seedDefault | seedScalar => exact (hi trivial).elim
      | seedArray key =>
        obtain rfl : key = [] := not_not.mp hi
        exact ⟨_, _, exec_seedArray_nil s, exec_seedArray_nil t, hindex, hcmd, hrspAdd _, hrst, hstate⟩
      | next =>
        exact ⟨_, _, exec_next_of_unseeded s hu, exec_next_of_unseeded t (hindex ▸ hu), hindex, hcmd, hrspAdd _, hrst, hstate⟩
  · obtain ⟨a, x, r, hall⟩ := exec_answer i s.state s.index
    exact ⟨_, _, hall s rfl rfl, hall t (hstate hu).symm hindex.symm, rfl, hcmd, hrspAdd r, hrst, fun _ => rfl⟩

/-- Blocks that no host can tell apart stay so in a step: the reset input and the decoder see the same in both. -/
theorem step_alike {s t : State} (h : Alike s t) : ∃ s' t', step s = .next s' ∧ step t = .next t' ∧ Alike s' t' := by
  obtain ⟨hindex, hcmd, hrsp, hrst, hstate⟩ := h
  obtain ⟨s', hs', hshape⟩ := step_shape s
  cases hshape with
  | reset hr =>
    exact ⟨_, _, hs', step_of_reset (hrst ▸ hr), rfl, rfl, rfl, rfl, fun hne => (hne rfl).elim⟩
  | wait hr hd => exact ⟨_, _, hs', step_of_incomplete (hrst ▸ hr) (hcmd ▸ hd), hindex, hcmd, hrsp, hrst, hstate⟩
  | illegal hr why header rest hd =>
    have hrspAdd : s.rspPort ++ [⟨0x03, header⟩] = t.rspPort ++ [⟨0x03, header⟩] := by rw [hrsp]
    exact ⟨_, _, hs', step_of_illegal (rest := rest) (hrst ▸ hr) (hcmd ▸ hd), hindex, rfl, hrspAdd, hrst, hstate⟩
  | command hr i rest hd =>
    rw [step_of_command hr hd, step_of_command (hrst ▸ hr) (hcmd ▸ hd)]
    exact exec_alike i ⟨hindex, rfl, hrsp, hrst, hstate⟩

/-- Settles O40, by induction on the number of steps. -/
theorem unspecifiedContentNeverReachesAnOutput : Obligations.UnspecifiedContentNeverReachesAnOutput := by
  intro n
  induction n with
  | zero => exact fun s t h => ⟨s, t, rfl, rfl, h⟩
  | succ n ih =>
    intro s t h
    obtain ⟨s', t', hs, ht, h'⟩ := step_alike h
    rw [run_of_step hs, run_of_step ht]
    exact ih s' t' h'

end Sys2Proof.Machine
end
